-- ==== Sys2Proof/Word.lean ====
section
/-! DEFINITION. The word types of MRA: a word is 32 bits, a half word 16, the addressable unit is the byte
(spec/00_scope.md R1, R8). A register is 32 bits wide and so is an address (R8; spec/20_memory.md R40). -/

namespace Sys2Proof

/-- A 32-bit word: the contents of a register, the program counter, a byte address (R8, R20, R25, R40). -/
abbrev Word := BitVec 32

/-- A 16-bit half word: one instruction (R1, R60). -/
abbrev Half := BitVec 16

/-- The addressable unit of memory (R8, R40). -/
abbrev Byte := BitVec 8

end Sys2Proof
end

