-- ==== Sys2Proof/Config.lean ====
section
/-! DEFINITION. The parameters the manual leaves open (spec/00_scope.md R9), as plain data, each with the values
the spec names for it. `Config.default` holds R9's defaults. Every statement about the machine can so be made for
every value of every parameter (log 1). EXT_SEM and SYS_SEM are functions of the state and stand in
Machine/Platform.lean; REG_RESET is settled in Machine/State.lean (log 2). -/

namespace Sys2Proof

/-- `ENDIAN` (R42, D1): one byte order for the fetch and for LDW and STW. -/
inductive Endian where
  | little
  | big
  deriving DecidableEq, Repr

/-- `DATA_ALIGN_POLICY` (R45, D2): LDW or STW at an address that is not a multiple of 4. -/
inductive DataAlign where
  | fault
  | split
  deriving DecidableEq, Repr

/-- `FETCH_ALIGN_POLICY` (R46, D3): a fetch at an odd `pc`. -/
inductive FetchAlign where
  | fault
  | ignoreBit0
  deriving DecidableEq, Repr

/-- `SMC_POLICY` (R56, D7): a fetch of bytes an STW of the run has written. -/
inductive SmcPolicy where
  | fault
  | coherent
  deriving DecidableEq, Repr

/-- The three conditions of the BCC format (R71, R104 to R106). -/
inductive Cond where
  | eq
  | ne
  | lt
  deriving DecidableEq, Repr

/-- `COND_CODES` (R71, D10): BEQ, BNE and BLT use the values 01, 10, 11 of `cond` in some order (N5).
A constructor lists the three conditions in the order of the codes 01, 10, 11. -/
inductive CondCodes where
  | eqNeLt
  | eqLtNe
  | neEqLt
  | neLtEq
  | ltEqNe
  | ltNeEq
  deriving DecidableEq, Repr

/-- `PAIR_MAP` (R103, D11): how the field `pair` = p names the two registers `(ra, rb)`. -/
inductive PairMap where
  /-- The default: (r(2p), r(2p+1)). -/
  | evenOdd
  /-- Alternative A of D11: (r(2p-1 mod 16), r(2p)). -/
  | oddEven
  /-- Alternative B of D11: (r(2p+1), r(2p+2 mod 16)). -/
  | oddNext
  deriving DecidableEq, Repr

/-- `L_POLARITY` (R74, D12): the value of W[6] that is LDW in the MEM format. -/
inductive LPolarity where
  | oneLoads
  | zeroLoads
  deriving DecidableEq, Repr

/-- `S_POLARITY` (R75, R76, D13): the value of W[6] that is INC and SLI. -/
inductive SPolarity where
  | zeroIsFirst
  | oneIsFirst
  deriving DecidableEq, Repr

/-- `IMM_BITS` (R70, R151, D14): the order of the five immediate bits of IMM. -/
inductive ImmBits where
  /-- imm5 = W[11:7]. -/
  | contiguous
  /-- imm5 = W[7] ∥ W[11:8] (R151). -/
  | signInBit7
  deriving DecidableEq, Repr

/-- `SHIFT_AMOUNT_MODE` (R114, D15): the count of SHL and SHR is the whole register, or its low five bits. -/
inductive ShiftAmount where
  | literal
  | mod32
  deriving DecidableEq, Repr

/-- `SHR_KIND` (R115, R121, D15, D31): what enters at bit 31 in SHR and SRI. -/
inductive ShrKind where
  | logical
  | arithmetic
  deriving DecidableEq, Repr

/-- `MEM_RA_ZERO` (R143, D23): what an LDW or STW word with W[10:7] = 0000 does. -/
inductive MemRaZero where
  | execute
  | refuse
  deriving DecidableEq, Repr

/-- A run of `size` byte addresses from `base` on that hold memory. -/
structure Region where
  base : Nat
  size : Nat
  deriving DecidableEq, Repr

/-- The parameters of R9 that are data. `regions` is `MEM_REGIONS` (R50): an address holds memory when some
region contains it. -/
structure Config where
  endian : Endian
  dataAlign : DataAlign
  fetchAlign : FetchAlign
  regions : List Region
  smc : SmcPolicy
  condCodes : CondCodes
  pairMap : PairMap
  lPolarity : LPolarity
  sPolarity : SPolarity
  immBits : ImmBits
  shiftAmount : ShiftAmount
  shrKind : ShrKind
  memRaZero : MemRaZero
  deriving DecidableEq, Repr

/-- R9's default of every parameter. R9 and R50 give `MEM_REGIONS` no default; here it is the whole 32-bit address
space (DESIGN CHOICE, log 4). -/
def Config.default : Config where
  endian := .little
  dataAlign := .fault
  fetchAlign := .fault
  regions := [{ base := 0, size := 4294967296 }]
  smc := .fault
  condCodes := .eqNeLt
  pairMap := .evenOdd
  lPolarity := .oneLoads
  sPolarity := .zeroIsFirst
  immBits := .contiguous
  shiftAmount := .literal
  shrKind := .logical
  memRaZero := .execute

end Sys2Proof
end

