-- ==== Sys2Proof/Syntax.lean ====
section
/-! DEFINITION. The instructions of MRA: one constructor for each row of spec/opcode_table.json, with the operands
the row's fields give (spec/30_encoding.md R64 to R78), and the names of the registers (spec/10_state.md R23).
An immediate stands here as the bits of its field; its extension and scaling (R77) belong to the meanings. -/

namespace Sys2Proof

/-- The number of a general register: the 4-bit field that names it (R20, R23, R78). -/
abbrev Reg := BitVec 4

/-- The aliases of R23. -/
abbrev Reg.zero : Reg := 0#4
abbrev Reg.t0 : Reg := 1#4
abbrev Reg.t1 : Reg := 2#4
abbrev Reg.t2 : Reg := 3#4
abbrev Reg.t3 : Reg := 4#4
abbrev Reg.t4 : Reg := 5#4
abbrev Reg.t5 : Reg := 6#4
abbrev Reg.t6 : Reg := 7#4
abbrev Reg.s0 : Reg := 8#4
abbrev Reg.s1 : Reg := 9#4
abbrev Reg.s2 : Reg := 10#4
abbrev Reg.s3 : Reg := 11#4
abbrev Reg.o0 : Reg := 10#4
abbrev Reg.o1 : Reg := 11#4
abbrev Reg.a0 : Reg := 12#4
abbrev Reg.a1 : Reg := 13#4
/-- The stack pointer, by convention (R24). -/
abbrev Reg.sp : Reg := 14#4
/-- The link register, by convention (R24). -/
abbrev Reg.lr : Reg := 15#4

/-- The instructions, in the order of precedence of R62. Operands are named as the manual names them. -/
inductive Instr where
  /-- `bal <label>` (R101). -/
  | bal (off : BitVec 12)
  /-- `ext <imm8>` with imm8 below 16: form 1, the field is imm8[3:0] (R65, R160). -/
  | ext1 (imm : BitVec 4)
  /-- `ext <imm8>` with imm8 of 16 or more: form 2, the field is imm8[7:4] (R66, R160). -/
  | ext2 (imm : BitVec 4)
  /-- `mul <rz>, <rz>, <ra>` (R130). -/
  | mul (rz ra : Reg)
  /-- `bin <ra>` (R102). -/
  | bin (ra : Reg)
  /-- `sys <imm4>` (R162). -/
  | sys (imm : BitVec 4)
  /-- `imm <rd>, <imm5>` (R150). -/
  | imm (rd : Reg) (imm : BitVec 5)
  /-- `beq <ra>, <rb>, <label>` (R104). -/
  | beq (ra rb : Reg) (off : BitVec 7)
  /-- `bne <ra>, <rb>, <label>` (R105). -/
  | bne (ra rb : Reg) (off : BitVec 7)
  /-- `blt <ra>, <rb>, <label>` (R106). -/
  | blt (ra rb : Reg) (off : BitVec 7)
  /-- `adr <rd>, <label>` (R107). -/
  | adr (rd : Reg) (off : BitVec 10)
  /-- `and <rd>, <ra>, <rb>` (R111). -/
  | and (rd ra rb : Reg)
  /-- `orr <rd>, <ra>, <rb>` (R112). -/
  | orr (rd ra rb : Reg)
  /-- `xor <rd>, <ra>, <rb>` (R113). -/
  | xor (rd ra rb : Reg)
  /-- `shl <rd>, <ra>, <rb>` (R114). -/
  | shl (rd ra rb : Reg)
  /-- `shr <rd>, <ra>, <rb>` (R115). -/
  | shr (rd ra rb : Reg)
  /-- `add <rd>, <ra>, <rb>` (R116). -/
  | add (rd ra rb : Reg)
  /-- `sub <rd>, <ra>, <rb>` (R117). -/
  | sub (rd ra rb : Reg)
  /-- `ldw <rd>, [<ra>]` (R141). -/
  | ldw (rd ra : Reg)
  /-- `stw [<rd>], <ra>` (R142): `rd` holds the address. -/
  | stw (rd ra : Reg)
  /-- `inc <rz>, <imm5>` (R118). -/
  | inc (rz : Reg) (imm : BitVec 5)
  /-- `dec <rz>, <imm5>` (R119). -/
  | dec (rz : Reg) (imm : BitVec 5)
  /-- `sli <rd>, <ra>, <imm5>` (R120). -/
  | sli (rd ra : Reg) (imm : BitVec 5)
  /-- `sri <rd>, <ra>, <imm5>` (R121). -/
  | sri (rd ra : Reg) (imm : BitVec 5)
  deriving DecidableEq, Repr

end Sys2Proof
end

