-- ==== Sys2Proof/Machine/Fields.lean ====
section
/-! DEFINITION. The fields of an instruction word whose meaning is a parameter of R9: the condition codes, the
register pair, the one-bit selectors and the order of the immediate bits of IMM. Each is given in both directions,
field to meaning and meaning to field. Bits of W are numbered 15 to 0 (R10); `w.extractLsb' lo n` is W[lo+n-1:lo]. -/

namespace Sys2Proof

/-- The value of the field `cond` for each condition (R71; `COND_CODES`, D10). -/
def condCode (cc : CondCodes) (c : Cond) : BitVec 2 :=
  match cc, c with
  | .eqNeLt, .eq => 1#2 | .eqNeLt, .ne => 2#2 | .eqNeLt, .lt => 3#2
  | .eqLtNe, .eq => 1#2 | .eqLtNe, .ne => 3#2 | .eqLtNe, .lt => 2#2
  | .neEqLt, .eq => 2#2 | .neEqLt, .ne => 1#2 | .neEqLt, .lt => 3#2
  | .neLtEq, .eq => 3#2 | .neLtEq, .ne => 1#2 | .neLtEq, .lt => 2#2
  | .ltEqNe, .eq => 2#2 | .ltEqNe, .ne => 3#2 | .ltEqNe, .lt => 1#2
  | .ltNeEq, .eq => 3#2 | .ltNeEq, .ne => 2#2 | .ltNeEq, .lt => 1#2

/-- The condition a value of `cond` names; 00 names none (R71). -/
def condOfCode (cc : CondCodes) (code : BitVec 2) : Option Cond :=
  if code = condCode cc .eq then some .eq
  else if code = condCode cc .ne then some .ne
  else if code = condCode cc .lt then some .lt
  else none

/-- `PAIR_MAP(p)` = `(ra, rb)` (R103, D11). -/
def pairRegs (pm : PairMap) (p : BitVec 3) : Reg × Reg :=
  match pm with
  | .evenOdd => (p ++ 0#1, p ++ 1#1)
  | .oddEven => (p ++ 0#1 - 1#4, p ++ 0#1)
  | .oddNext => (p ++ 1#1, p ++ 1#1 + 1#4)

/-- The value of `pair` that names a pair of the image of `PAIR_MAP`. -/
def pairField (pm : PairMap) (ra rb : Reg) : BitVec 3 :=
  match pm with
  | .evenOdd => ra.extractLsb' 1 3
  | .oddEven => rb.extractLsb' 1 3
  | .oddNext => ra.extractLsb' 1 3

/-- Whether `(ra, rb)` is `PAIR_MAP(p)` for some p: a valid pair (R103). -/
def isPair (pm : PairMap) (ra rb : Reg) : Bool :=
  pairRegs pm (pairField pm ra rb) == (ra, rb)

/-- The bit `L` of the MEM format for a load or a store (R74; `L_POLARITY`, D12). -/
def lBit (lp : LPolarity) (load : Bool) : BitVec 1 :=
  match lp with
  | .oneLoads => BitVec.ofBool load
  | .zeroLoads => BitVec.ofBool !load

/-- Whether a value of `L` is LDW. -/
def isLoad (lp : LPolarity) (l : BitVec 1) : Bool :=
  l == lBit lp true

/-- The bit `S` of the INC and SHI formats for the first of the pair (INC, SLI) or the second (DEC, SRI)
(R75, R76; `S_POLARITY`, D13). -/
def sBit (sp : SPolarity) (first : Bool) : BitVec 1 :=
  match sp with
  | .zeroIsFirst => BitVec.ofBool !first
  | .oneIsFirst => BitVec.ofBool first

/-- Whether a value of `S` is the first of the pair. -/
def isFirst (sp : SPolarity) (b : BitVec 1) : Bool :=
  b == sBit sp true

/-- The immediate of IMM from W[11:7] (R70, R151; `IMM_BITS`, D14). -/
def immOfField (ib : ImmBits) (f : BitVec 5) : BitVec 5 :=
  match ib with
  | .contiguous => f
  | .signInBit7 => f.extractLsb' 0 1 ++ f.extractLsb' 1 4

/-- W[11:7] of an IMM with this immediate. -/
def fieldOfImm (ib : ImmBits) (v : BitVec 5) : BitVec 5 :=
  match ib with
  | .contiguous => v
  | .signInBit7 => v.extractLsb' 0 4 ++ v.extractLsb' 4 1

end Sys2Proof
end

