-- ==== Sys2Proof/WellFormed.lean ====
section
/-! DEFINITION. Which instructions can be encoded: the operand constraints of Chapter 2 ("debe ser distinto de"),
as spec/30_encoding.md R80 and R83 and spec/46_pseudo.md R172 list them. A constraint is not a run-time check: the
word one would write by ignoring it is another instruction (R80). LDW and STW with ra = r0 are encodable (R74, C2). -/

namespace Sys2Proof

/-- Why an instruction has no encoding. -/
inductive IllFormed where
  /-- The destination register (for STW the address register in W[3:0]) is r0. -/
  | zeroDest
  /-- The source register is r0 (MUL, SLI, SRI). -/
  | zeroSource
  /-- The immediate is 0 (INC, DEC, SLI, SRI), or an EXT of form 2 has an operand below 16. -/
  | zeroImm
  /-- The two registers of a conditional branch are not `PAIR_MAP(p)` for any p. -/
  | notAPair
  deriving DecidableEq, Repr

/-- The first of these reasons, in the order written, whose flag is set. -/
def firstIll (checks : List (Bool × IllFormed)) : Option IllFormed :=
  (checks.find? (·.1)).map (·.2)

/-- Why `i` cannot be encoded, if it cannot. -/
def illFormed (cfg : Config) (i : Instr) : Option IllFormed :=
  match i with
  | .bal _ => none
  | .ext1 _ => none
  | .ext2 n => firstIll [(n == 0#4, .zeroImm)]
  | .mul rz ra => firstIll [(rz == 0#4, .zeroDest), (ra == 0#4, .zeroSource)]
  | .bin _ => none
  | .sys _ => none
  | .imm rd _ => firstIll [(rd == 0#4, .zeroDest)]
  | .beq ra rb _ => firstIll [(!isPair cfg.pairMap ra rb, .notAPair)]
  | .bne ra rb _ => firstIll [(!isPair cfg.pairMap ra rb, .notAPair)]
  | .blt ra rb _ => firstIll [(!isPair cfg.pairMap ra rb, .notAPair)]
  | .adr rd _ => firstIll [(rd == 0#4, .zeroDest)]
  | .and rd _ _ => firstIll [(rd == 0#4, .zeroDest)]
  | .orr rd _ _ => firstIll [(rd == 0#4, .zeroDest)]
  | .xor rd _ _ => firstIll [(rd == 0#4, .zeroDest)]
  | .shl rd _ _ => firstIll [(rd == 0#4, .zeroDest)]
  | .shr rd _ _ => firstIll [(rd == 0#4, .zeroDest)]
  | .add rd _ _ => firstIll [(rd == 0#4, .zeroDest)]
  | .sub rd _ _ => firstIll [(rd == 0#4, .zeroDest)]
  | .ldw rd _ => firstIll [(rd == 0#4, .zeroDest)]
  | .stw rd _ => firstIll [(rd == 0#4, .zeroDest)]
  | .inc rz n => firstIll [(rz == 0#4, .zeroDest), (n == 0#5, .zeroImm)]
  | .dec rz n => firstIll [(rz == 0#4, .zeroDest), (n == 0#5, .zeroImm)]
  | .sli rd ra n => firstIll [(rd == 0#4, .zeroDest), (ra == 0#4, .zeroSource), (n == 0#5, .zeroImm)]
  | .sri rd ra n => firstIll [(rd == 0#4, .zeroDest), (ra == 0#4, .zeroSource), (n == 0#5, .zeroImm)]

/-- Whether `i` can be encoded under these parameters. -/
def wellFormed (cfg : Config) (i : Instr) : Bool :=
  (illFormed cfg i).isNone

end Sys2Proof
end

