-- ==== Sys2Proof/Decode.lean ====
section
/-! DEFINITION. Decoding by precedence (spec/30_encoding.md R62 to R78) and, after it, the encoder (R83) and the
decision tree of R79. The thirteen rows and their masks are R62's; the fields are those of R64 to R76. The encoder is
written from the format tables, not by inverting the decoder. -/

namespace Sys2Proof

/-- The thirteen rows of the precedence table (R62). -/
inductive Row where
  | bal | ext1 | ext2 | mul | bin | sys | imm | bcc | adr | alu | mem | inc | shi
  deriving DecidableEq, Repr

/-- The mask of a row (R62). -/
def rowMask (r : Row) : Half :=
  match r with
  | .bal => 0x00F0#16
  | .ext1 => 0xF0FF#16
  | .ext2 => 0x0FFF#16
  | .mul => 0x00FF#16
  | .bin => 0xF0FF#16
  | .sys => 0xF0FF#16
  | .imm => 0x007F#16
  | .bcc => 0x000F#16
  | .adr => 0x0030#16
  | .alu => 0x0010#16
  | .mem => 0xF830#16
  | .inc => 0x07B0#16
  | .shi => 0x0030#16

/-- The constant bits of a row, the column "match" of R62. -/
def rowBits (r : Row) : Half :=
  match r with
  | .bal => 0x0000#16
  | .ext1 => 0x0080#16
  | .ext2 => 0x0080#16
  | .mul => 0x0080#16
  | .bin => 0x0040#16
  | .sys => 0x00C0#16
  | .imm => 0x0040#16
  | .bcc => 0x0000#16
  | .adr => 0x0030#16
  | .alu => 0x0000#16
  | .mem => 0x0010#16
  | .inc => 0x0010#16
  | .shi => 0x0010#16

/-- Whether a word has the constant bits of a row. -/
def rowMatches (r : Row) (w : Half) : Bool :=
  w &&& rowMask r == rowBits r

/-- The order of precedence (R62). -/
def precedence : List Row :=
  [.bal, .ext1, .ext2, .mul, .bin, .sys, .imm, .bcc, .adr, .alu, .mem, .inc, .shi]

/-- The row that decides a word: the first whose constant bits all match (R62). -/
def rowOf (w : Half) : Option Row :=
  precedence.find? (rowMatches · w)

/-- Why some bytes are no instruction. -/
inductive DecodeError where
  /-- No row of the precedence table reads the word. R63 says there is no such word. -/
  | noRow (w : Half)
  /-- Fewer than two bytes: an instruction is exactly 16 bits (R60). -/
  | truncated
  deriving DecidableEq, Repr

/-- The conditional branch with this condition (R71). -/
def condBranch (c : Cond) (ra rb : Reg) (off : BitVec 7) : Instr :=
  match c with
  | .eq => .beq ra rb off
  | .ne => .bne ra rb off
  | .lt => .blt ra rb off

/-- The ALU instruction with this opcode; 000 is none (R73). -/
def aluInstr (op : BitVec 3) (rd ra rb : Reg) : Option Instr :=
  match op with
  | 1#3 => some (.and rd ra rb)
  | 2#3 => some (.orr rd ra rb)
  | 3#3 => some (.xor rd ra rb)
  | 4#3 => some (.shl rd ra rb)
  | 5#3 => some (.shr rd ra rb)
  | 6#3 => some (.add rd ra rb)
  | 7#3 => some (.sub rd ra rb)
  | _ => none

/-- A word read by a row: its fields as R64 to R76 place them. -/
def readRow (cfg : Config) (r : Row) (w : Half) : Option Instr :=
  match r with
  | .bal => some (.bal (w.extractLsb' 8 8 ++ w.extractLsb' 0 4))
  | .ext1 => some (.ext1 (w.extractLsb' 8 4))
  | .ext2 => some (.ext2 (w.extractLsb' 12 4))
  | .mul => some (.mul (w.extractLsb' 8 4) (w.extractLsb' 12 4))
  | .bin => some (.bin (w.extractLsb' 8 4))
  | .sys => some (.sys (w.extractLsb' 8 4))
  | .imm => some (.imm (w.extractLsb' 12 4) (immOfField cfg.immBits (w.extractLsb' 7 5)))
  | .bcc =>
    (condOfCode cfg.condCodes (w.extractLsb' 4 2)).map fun c =>
      condBranch c (pairRegs cfg.pairMap (w.extractLsb' 13 3)).1 (pairRegs cfg.pairMap (w.extractLsb' 13 3)).2
        (w.extractLsb' 6 7)
  | .adr => some (.adr (w.extractLsb' 0 4) (w.extractLsb' 6 10))
  | .alu => aluInstr (w.extractLsb' 5 3) (w.extractLsb' 0 4) (w.extractLsb' 12 4) (w.extractLsb' 8 4)
  | .mem =>
    some (if isLoad cfg.lPolarity (w.extractLsb' 6 1) then .ldw (w.extractLsb' 0 4) (w.extractLsb' 7 4)
      else .stw (w.extractLsb' 0 4) (w.extractLsb' 7 4))
  | .inc =>
    some (if isFirst cfg.sPolarity (w.extractLsb' 6 1) then .inc (w.extractLsb' 0 4) (w.extractLsb' 11 5)
      else .dec (w.extractLsb' 0 4) (w.extractLsb' 11 5))
  | .shi =>
    some (if isFirst cfg.sPolarity (w.extractLsb' 6 1)
      then .sli (w.extractLsb' 0 4) (w.extractLsb' 7 4) (w.extractLsb' 11 5)
      else .sri (w.extractLsb' 0 4) (w.extractLsb' 7 4) (w.extractLsb' 11 5))

/-- The instruction a word is: the row of highest precedence that matches reads it (R62). It rejects by name; R63
says that it never does. -/
def decode (cfg : Config) (w : Half) : Except DecodeError Instr :=
  match (rowOf w).bind (readRow cfg · w) with
  | some i => .ok i
  | none => .error (.noRow w)

/-- A half word from the two bytes at rising addresses (R42, R43). -/
def joinHalf (e : Endian) (b0 b1 : Byte) : Half :=
  match e with
  | .little => b1 ++ b0
  | .big => b0 ++ b1

/-- The two bytes of a half word at rising addresses (R43, R44, R48). -/
def halfBytes (e : Endian) (w : Half) : Byte × Byte :=
  match e with
  | .little => (w.extractLsb' 0 8, w.extractLsb' 8 8)
  | .big => (w.extractLsb' 8 8, w.extractLsb' 0 8)

/-- The first instruction of some bytes and the bytes after it. -/
def decodeBytes (cfg : Config) (bs : List Byte) : Except DecodeError (Instr × List Byte) :=
  match bs with
  | b0 :: b1 :: rest =>
    match decode cfg (joinHalf cfg.endian b0 b1) with
    | .ok i => .ok (i, rest)
    | .error e => .error e
  | _ => .error .truncated

/-- The instruction the decoder reads, under R9's defaults, from a word of `nbits` bits numbered as
spec/opcode_table.json numbers them, stored as the machine stores it. An instruction is 16 bits (R60): more bits than
that are none. -/
def decodeTableWord (nbits w : Nat) : Option Instr :=
  if nbits ≤ 16 then
    let b := halfBytes Config.default.endian (BitVec.ofNat 16 (w % 2 ^ nbits))
    match decodeBytes Config.default [b.1, b.2] with
    | .ok (i, _) => some i
    | .error _ => none
  else none

/-! The encoder (R83). -/

/-- A word of the ALU format (R73): ra ∥ rb ∥ opcode ∥ 0 ∥ rd. -/
def aluWord (op : BitVec 3) (rd ra rb : Reg) : Half :=
  ra ++ rb ++ op ++ 0#1 ++ rd

/-- A word of the BCC format (R71): pair ∥ off7 ∥ cond ∥ 0000. -/
def bccWord (cfg : Config) (c : Cond) (ra rb : Reg) (off : BitVec 7) : Half :=
  pairField cfg.pairMap ra rb ++ off ++ condCode cfg.condCodes c ++ 0#4

/-- The fields of an instruction placed by the format tables of R64 to R76. -/
def encodeWord (cfg : Config) (i : Instr) : Half :=
  match i with
  | .bal off => off.extractLsb' 4 8 ++ 0#4 ++ off.extractLsb' 0 4
  | .ext1 n => 0#4 ++ n ++ 0x80#8
  | .ext2 n => n ++ 0x080#12
  | .mul rz ra => ra ++ rz ++ 0x80#8
  | .bin ra => 0#4 ++ ra ++ 0x40#8
  | .sys n => 0#4 ++ n ++ 0xC0#8
  | .imm rd v => rd ++ fieldOfImm cfg.immBits v ++ 0x40#7
  | .beq ra rb off => bccWord cfg .eq ra rb off
  | .bne ra rb off => bccWord cfg .ne ra rb off
  | .blt ra rb off => bccWord cfg .lt ra rb off
  | .adr rd off => off ++ 3#2 ++ rd
  | .and rd ra rb => aluWord 1#3 rd ra rb
  | .orr rd ra rb => aluWord 2#3 rd ra rb
  | .xor rd ra rb => aluWord 3#3 rd ra rb
  | .shl rd ra rb => aluWord 4#3 rd ra rb
  | .shr rd ra rb => aluWord 5#3 rd ra rb
  | .add rd ra rb => aluWord 6#3 rd ra rb
  | .sub rd ra rb => aluWord 7#3 rd ra rb
  | .ldw rd ra => 0#5 ++ ra ++ lBit cfg.lPolarity true ++ 1#2 ++ rd
  | .stw rd ra => 0#5 ++ ra ++ lBit cfg.lPolarity false ++ 1#2 ++ rd
  | .inc rz n => n ++ 0#4 ++ sBit cfg.sPolarity true ++ 1#2 ++ rz
  | .dec rz n => n ++ 0#4 ++ sBit cfg.sPolarity false ++ 1#2 ++ rz
  | .sli rd ra n => n ++ ra ++ sBit cfg.sPolarity true ++ 1#2 ++ rd
  | .sri rd ra n => n ++ ra ++ sBit cfg.sPolarity false ++ 1#2 ++ rd

/-- The word of an instruction; an operand combination of R80's left column, or a pair outside the image of
`PAIR_MAP`, is refused by name (R83). -/
def encode (cfg : Config) (i : Instr) : Except IllFormed Half :=
  match illFormed cfg i with
  | some e => .error e
  | none => .ok (encodeWord cfg i)

/-! The decision tree of R79. -/

/-- R79's branch for W[3:0] ≠ 0000 and W[5:4] = 01. -/
def decodeTreeLow01 (cfg : Config) (w : Half) : Instr :=
  if w.extractLsb' 11 5 = 0#5 then
    if isLoad cfg.lPolarity (w.extractLsb' 6 1) then .ldw (w.extractLsb' 0 4) (w.extractLsb' 7 4)
    else .stw (w.extractLsb' 0 4) (w.extractLsb' 7 4)
  else if w.extractLsb' 7 4 = 0#4 then
    if isFirst cfg.sPolarity (w.extractLsb' 6 1) then .inc (w.extractLsb' 0 4) (w.extractLsb' 11 5)
    else .dec (w.extractLsb' 0 4) (w.extractLsb' 11 5)
  else
    if isFirst cfg.sPolarity (w.extractLsb' 6 1)
    then .sli (w.extractLsb' 0 4) (w.extractLsb' 7 4) (w.extractLsb' 11 5)
    else .sri (w.extractLsb' 0 4) (w.extractLsb' 7 4) (w.extractLsb' 11 5)

/-- R79's branch for W[5:0] = 000000 and W[7:6] ≠ 00. -/
def decodeTreeZeroLow (cfg : Config) (w : Half) : Instr :=
  if w.extractLsb' 6 2 = 2#2 then
    if w.extractLsb' 12 4 = 0#4 then .ext1 (w.extractLsb' 8 4)
    else if w.extractLsb' 8 4 = 0#4 then .ext2 (w.extractLsb' 12 4)
    else .mul (w.extractLsb' 8 4) (w.extractLsb' 12 4)
  else if w.extractLsb' 12 4 = 0#4 then
    if w.extractLsb' 7 1 = 0#1 then .bin (w.extractLsb' 8 4) else .sys (w.extractLsb' 8 4)
  else .imm (w.extractLsb' 12 4) (immOfField cfg.immBits (w.extractLsb' 7 5))

/-- The order-independent decoder of R79: one decision tree on the low bits. `none` stands where R79's tree names
nothing. -/
def decodeTree (cfg : Config) (w : Half) : Option Instr :=
  if w.extractLsb' 4 4 = 0#4 then some (.bal (w.extractLsb' 8 8 ++ w.extractLsb' 0 4))
  else if w.extractLsb' 0 4 = 0#4 then
    match condOfCode cfg.condCodes (w.extractLsb' 4 2) with
    | some c =>
      some (condBranch c (pairRegs cfg.pairMap (w.extractLsb' 13 3)).1 (pairRegs cfg.pairMap (w.extractLsb' 13 3)).2
        (w.extractLsb' 6 7))
    | none => some (decodeTreeZeroLow cfg w)
  else if w.extractLsb' 4 1 = 0#1 then
    aluInstr (w.extractLsb' 5 3) (w.extractLsb' 0 4) (w.extractLsb' 12 4) (w.extractLsb' 8 4)
  else if w.extractLsb' 5 1 = 1#1 then some (.adr (w.extractLsb' 0 4) (w.extractLsb' 6 10))
  else some (decodeTreeLow01 cfg w)

end Sys2Proof
end

