-- ==== Sys2Proof/Machine/State.lean ====
section
/-! DEFINITION. The machine's state as plain data, what can stop a step, and the state after reset
(spec/10_state.md; spec/60_exceptions.md R201). R34: the state is x[1..15], pc and memory, and a step is a function of
it and of the parameters. The set `written` is bookkeeping the spec gives the model (R31, R44). -/

namespace Sys2Proof.Machine

/-- The model-level faults (R201). A fault ends the run: it changes no state and no step follows it (R11, R204).
The one fault of R201 that is not here is `Fault.UnwrittenRegister`: the model takes the other value of REG_RESET
(log 2). -/
inductive Fault where
  /-- Raised by the fetch of any step: `pc` is odd and FETCH_ALIGN_POLICY is `fault` (R202). Safe: it stops where a
  machine may go on. -/
  | fetchMisaligned (pc : Word)
  /-- Raised by the fetch, LDW and STW: the first byte of the access that MEM_REGIONS does not contain (R43, R44).
  Safe. -/
  | unmapped (addr : Word)
  /-- Raised by the fetch: a byte of it was written by an STW of this run and SMC_POLICY is `fault` (R56). Safe. -/
  | modifiedCode (pc : Word)
  /-- Raised by LDW and STW: the address is no multiple of 4 and DATA_ALIGN_POLICY is `fault` (R45). Safe. -/
  | dataMisaligned (addr : Word)
  /-- Raised by EXT: no extension is implemented (R161). Safe. -/
  | extUndefined (imm8 : BitVec 8)
  /-- Raised by SYS: undefined behaviour by the manual's own words (R163). Safe. -/
  | sysUndefined (imm4 : BitVec 4)
  /-- Raised by LDW and STW with W[10:7] = 0000 when MEM_RA_ZERO is `refuse` (R143). Safe. -/
  | constraintViolated (w : Half)
  /-- Raised by the fetch and LDW: the first byte of the access that holds no value, because neither the image nor a
  store gave it one (D27's "fault on read before write", log 3). Safe. -/
  | unwrittenMemory (addr : Word)
  deriving DecidableEq, Repr

/-- Why a step has no meaning. -/
inductive Refusal where
  /-- Raised by `exec` for an instruction that has no meaning yet. None is left. Safe. -/
  | notModelled (mnemonic : String)
  /-- Raised by `step` if the decoder read no instruction from a word. R63 says that there is no such word, and an
  obligation states it. Safe. -/
  | undecodable (w : Half)
  deriving DecidableEq, Repr

/-- Memory: the bytes that hold a value, by address, in one canonical form: addresses strictly rising (R32, R40). An
unlisted byte holds no value (log 3). -/
abbrev Memory := List Host.Cell

/-- The state of the machine. -/
structure State where
  /-- x[1] to x[15], x[1] first (R20). x[0] is the constant 0 and is not stored (R21, R34). -/
  regs : Vector Word 15
  /-- The program counter: the byte address of the instruction being executed (R25, R26). -/
  pc : Word
  /-- Memory, for fetch and data alike (R32). -/
  mem : Memory
  /-- The byte addresses STW has written since the start of the run, strictly rising (R44; R31: bookkeeping). -/
  written : List Nat
  /-- The parameters of R9; no instruction changes them (R34, R42; log 1). -/
  cfg : Config
  deriving DecidableEq, Repr

/-- The state after reset for one draw of the register values R33 leaves unspecified and one choice of the
parameters. -/
def State.resetWith (draw : Vector Word 15) (cfg : Config) : State where
  regs := draw
  pc := 0#32
  mem := []
  written := []
  cfg := cfg

/-- The machine right after reset, before the host places an image (R33, R220, R222): pc = 0; the draw of r1 to r15
is zero (DESIGN CHOICE, unsafe, log 2); no byte of memory holds a value (log 3); the parameters are R9's defaults. -/
def State.reset : State :=
  State.resetWith (Vector.replicate 15 0#32) Config.default

end Sys2Proof.Machine
end

