-- ==== Sys2Proof/Machine/Ops.lean ====
section
/-! DEFINITION. The operations every meaning is written over: registers and pc (spec/10_state.md), bytes, words and
half words of memory (spec/20_memory.md R43, R44), the fetch (spec/60_exceptions.md R202). MRA has no exception entry
and no return from one (R200, R204, R207): a fault ends the run, so taking one is the outcome `.fault` and nothing
else, made by `finish`. -/

namespace Sys2Proof.Machine

/-! Registers and pc. -/

/-- x[i]: 0 for r0, the stored word for the others (R20, R21). -/
def State.reg (s : State) (i : Reg) : Word :=
  if h : i.toNat = 0 then 0#32 else s.regs[i.toNat - 1]'(by omega)

/-- x[i] <- v. No decoded instruction names r0 as its destination (R22); for a term that does, nothing is written
(log 27). -/
def State.setReg (s : State) (i : Reg) (v : Word) : State :=
  if h : i.toNat = 0 then s else { s with regs := s.regs.set (i.toNat - 1) v (by omega) }

/-- pc <- t. -/
def State.setPc (s : State) (t : Word) : State :=
  { s with pc := t }

/-- pc <- pc + 2, modulo 2^32 (R26, R27). -/
def State.advance (s : State) : State :=
  s.setPc (s.pc + 2#32)

/-- x[rd] <- v, then pc <- pc + 2: the end of every instruction that computes a register. -/
def State.writeAndAdvance (s : State) (rd : Reg) (v : Word) : State :=
  (s.setReg rd v).advance

/-- The outcome of a meaning that may fault: a fault changes no state (R204). -/
def finish (r : Except Fault State) : Host.Outcome State Fault Refusal :=
  match r with
  | .ok t => .next t
  | .error f => .fault f

/-! Memory as a list of cells. -/

/-- The value the byte at an address holds, if it holds one. -/
def memLookup (m : Memory) (a : Nat) : Option Byte :=
  match m with
  | [] => none
  | (k, v) :: rest => if k = a then some v else memLookup rest a

/-- Memory with the byte at an address holding a value, the addresses still rising. -/
def memInsert (m : Memory) (a : Nat) (b : Byte) : Memory :=
  match m with
  | [] => [(a, b)]
  | (k, v) :: rest =>
    if a < k then (a, b) :: (k, v) :: rest
    else if a = k then (a, b) :: rest
    else (k, v) :: memInsert rest a b

/-- A list of addresses with one more, still rising. -/
def addrInsert (l : List Nat) (a : Nat) : List Nat :=
  match l with
  | [] => [a]
  | k :: rest => if a < k then a :: k :: rest else if a = k then k :: rest else k :: addrInsert rest a

/-- Strictly rising, from above a bound, and within the 32-bit address space. -/
def rising (above : Option Nat) (l : List Nat) : Bool :=
  match l with
  | [] => true
  | a :: rest => (match above with | none => true | some b => decide (b < a)) && decide (a < 4294967296) && rising (some a) rest

/-- The canonical form of memory: addresses of the 32-bit space, strictly rising, so that equal memories are equal
lists. An unlisted byte holds no value, so no entry can equal what one reads as. -/
def Memory.wf (m : Memory) : Bool :=
  rising none (m.map (·.1))

/-- The byte at an address, if it holds a value. -/
def State.byte? (s : State) (a : Word) : Option Byte :=
  memLookup s.mem a.toNat

/-! Accesses. -/

/-- Whether MEM_REGIONS contains a byte address (R50). -/
def isMapped (cfg : Config) (a : Word) : Bool :=
  cfg.regions.any fun r => decide (r.base ≤ a.toNat) && decide (a.toNat < r.base + r.size)

/-- The byte addresses of an access of `n` bytes, modulo 2^32 (R43, R44, R51). -/
def accessAddrs (a : Word) (n : Nat) : List Word :=
  (List.range n).map fun i => a + BitVec.ofNat 32 i

/-- The mapping checks of R43 and R44: the first byte outside MEM_REGIONS faults. -/
def checkMapped (cfg : Config) (a : Word) (n : Nat) : Except Fault Unit :=
  match (accessAddrs a n).find? (fun b => !isMapped cfg b) with
  | some b => .error (.unmapped b)
  | none => .ok ()

/-- One byte read; a byte that holds no value faults (log 3). -/
def readByte (s : State) (a : Word) : Except Fault Byte :=
  match s.byte? a with
  | some b => .ok b
  | none => .error (.unwrittenMemory a)

/-- A word from its four bytes at rising addresses (R43). -/
def joinWord (e : Endian) (b0 b1 b2 b3 : Byte) : Word :=
  match e with
  | .little => b3 ++ b2 ++ b1 ++ b0
  | .big => b0 ++ b1 ++ b2 ++ b3

/-- The byte of a word that goes to offset `i` of its address, 0 to 3 (R44). -/
def wordByte (e : Endian) (v : Word) (i : Nat) : Byte :=
  match e with
  | .little => v.extractLsb' (8 * i) 8
  | .big => v.extractLsb' (24 - 8 * i) 8

/-- `MemRead(addr, 2)` (R43). -/
def memReadHalf (s : State) (a : Word) : Except Fault Half := do
  checkMapped s.cfg a 2
  let b0 ← readByte s a
  let b1 ← readByte s (a + 1#32)
  return joinHalf s.cfg.endian b0 b1

/-- `MemRead(addr, 4)` (R43). -/
def memReadWord (s : State) (a : Word) : Except Fault Word := do
  checkMapped s.cfg a 4
  let b0 ← readByte s a
  let b1 ← readByte s (a + 1#32)
  let b2 ← readByte s (a + 2#32)
  let b3 ← readByte s (a + 3#32)
  return joinWord s.cfg.endian b0 b1 b2 b3

/-- One byte stored by an STW, its address entered in `written` (R44). -/
def State.storeByte (s : State) (a : Word) (b : Byte) : State :=
  { s with mem := memInsert s.mem a.toNat b, written := addrInsert s.written a.toNat }

/-- The four bytes of a word stored (R44). -/
def State.storeWord (s : State) (a v : Word) : State :=
  (((s.storeByte a (wordByte s.cfg.endian v 0)).storeByte (a + 1#32) (wordByte s.cfg.endian v 1)).storeByte (a + 2#32)
    (wordByte s.cfg.endian v 2)).storeByte (a + 3#32) (wordByte s.cfg.endian v 3)

/-- `MemWrite(addr, 4, v)`: all four mapping checks, then all four bytes (R44). -/
def memWriteWord (s : State) (a v : Word) : Except Fault State := do
  checkMapped s.cfg a 4
  return s.storeWord a v

/-- The alignment check of LDW and STW (R45). -/
def checkDataAlign (cfg : Config) (a : Word) : Except Fault Unit :=
  match cfg.dataAlign with
  | .fault => if a.extractLsb' 0 2 = 0#2 then .ok () else .error (.dataMisaligned a)
  | .split => .ok ()

/-- The check of R143 for an LDW or STW, given its `ra` field and its word. -/
def checkRaField (cfg : Config) (ra : Reg) (w : Half) : Except Fault Unit :=
  match cfg.memRaZero with
  | .execute => .ok ()
  | .refuse => if ra = 0#4 then .error (.constraintViolated w) else .ok ()

/-! The fetch. -/

/-- Whether an address is even. -/
def isEven (a : Word) : Bool :=
  a.extractLsb' 0 1 == 0#1

/-- The address the fetch reads: `pc`, with bit 0 cleared under `ignore_bit0` (R46). -/
def fetchAddr (s : State) : Word :=
  match s.cfg.fetchAlign with
  | .fault => s.pc
  | .ignoreBit0 => s.pc &&& 0xFFFFFFFE#32

/-- The alignment check of the fetch (R46). -/
def checkFetchAlign (s : State) : Except Fault Unit :=
  match s.cfg.fetchAlign with
  | .fault => if isEven s.pc then .ok () else .error (.fetchMisaligned s.pc)
  | .ignoreBit0 => .ok ()

/-- Whether an STW of this run wrote a byte (R56). -/
def State.isWritten (s : State) (a : Word) : Bool :=
  s.written.contains a.toNat

/-- The check of SMC_POLICY on the fetch (R56). -/
def checkUnmodified (s : State) : Except Fault Unit :=
  match s.cfg.smc with
  | .fault =>
    if s.isWritten (fetchAddr s) || s.isWritten (fetchAddr s + 1#32) then .error (.modifiedCode s.pc) else .ok ()
  | .coherent => .ok ()

/-- The fetch, its checks in the order of R202 and R203. -/
def fetch (s : State) : Except Fault Half := do
  checkFetchAlign s
  checkMapped s.cfg (fetchAddr s) 2
  checkUnmodified s
  memReadHalf s (fetchAddr s)

/-! Placing bytes from outside the machine (R205, R222). -/

/-- One byte given a value by the host: no STW wrote it. -/
def State.placeByte (s : State) (a : Word) (b : Byte) : State :=
  { s with mem := memInsert s.mem a.toNat b }

/-- Bytes placed at rising addresses. -/
def State.placeBytes (s : State) (a : Word) (bs : List Byte) : State :=
  match bs with
  | [] => s
  | b :: rest => (s.placeByte a b).placeBytes (a + 1#32) rest

/-- A half word placed in ENDIAN order (R48, R187). -/
def State.placeHalf (s : State) (a : Word) (w : Half) : State :=
  s.placeBytes a [(halfBytes s.cfg.endian w).1, (halfBytes s.cfg.endian w).2]

/-- MEM_REGIONS made to contain a byte address. -/
def mapByte (cfg : Config) (a : Word) : Config :=
  if isMapped cfg a then cfg else { cfg with regions := { base := a.toNat, size := 1 } :: cfg.regions }

/-- The state in which the next fetch reads the word `w`: the two bytes at the fetch address hold it, MEM_REGIONS
contains them, no STW of the run counts as having written them where SMC_POLICY would refuse that, and `pc` is even
where FETCH_ALIGN_POLICY asks it (log 32). -/
def State.readyToFetch (s : State) (w : Half) : State :=
  let a := s.pc &&& 0xFFFFFFFE#32
  let written := match s.cfg.smc with
    | .fault => s.written.filter fun k => k != a.toNat && k != (a + 1#32).toNat
    | .coherent => s.written
  let pc := match s.cfg.fetchAlign with
    | .fault => a
    | .ignoreBit0 => s.pc
  { s with pc := pc, written := written, cfg := mapByte (mapByte s.cfg a) (a + 1#32) }.placeHalf a w

end Sys2Proof.Machine
end

