-- ==== Sys2Proof/Machine/Operands.lean ====
section
/-! DEFINITION. The operand forms and the arithmetic of the instructions: immediates and offsets (spec/30_encoding.md
R77), relative targets (spec/40_control_flow.md R100), shifts (spec/41_integer_alu.md R114, R115, R120, R121) and the
product (spec/42_multiply.md R130). All arithmetic is modulo 2^32 (R10, R122). -/

namespace Sys2Proof.Machine

/-- sext_32 (R10, R77). -/
def signExt {n : Nat} (v : BitVec n) : Word :=
  v.signExtend 32

/-- zext_32 (R10, R77). -/
def zeroExt {n : Nat} (v : BitVec n) : Word :=
  v.setWidth 32

/-- The target of a relative branch or of ADR: `pc + 2 * sext_32(offset)`, `pc` the address of the instruction that
holds the offset (R100). -/
def relTarget {n : Nat} (pc : Word) (off : BitVec n) : Word :=
  pc + 2#32 * signExt off

/-- The operand of EXT from either form: imm8 = W[15:8] (R160). -/
def extOperandLow (n : BitVec 4) : BitVec 8 :=
  0#4 ++ n

/-- As `extOperandLow`, of form 2. -/
def extOperandHigh (n : BitVec 4) : BitVec 8 :=
  n ++ 0#4

/-- The count of SHL and SHR (R114; SHIFT_AMOUNT_MODE). -/
def shiftCount (m : ShiftAmount) (v : Word) : Nat :=
  match m with
  | .literal => v.toNat
  | .mod32 => v.toNat % 32

/-- A left shift by `n`; 0 from 32 on (R10, R114). -/
def shiftLeft (v : Word) (n : Nat) : Word :=
  if 32 ≤ n then 0#32 else v <<< n

/-- A right shift by `n` (R10, R115; SHR_KIND): zeros enter at bit 31, or copies of bit 31. -/
def shiftRight (k : ShrKind) (v : Word) (n : Nat) : Word :=
  match k with
  | .logical => if 32 ≤ n then 0#32 else v >>> n
  | .arithmetic => if 32 ≤ n then (if v.msb then BitVec.allOnes 32 else 0#32) else v.sshiftRight n

/-- The low 32 bits of the unsigned product (R130). -/
def mulLow (a b : Word) : Word :=
  BitVec.ofNat 32 (a.toNat * b.toNat)

end Sys2Proof.Machine
end

