-- ==== Sys2Proof/Machine/Flags.lean ====
section
/-! DEFINITION. MRA has no flags and no condition codes (spec/10_state.md R28), so no instruction computes one. What
takes their place is here: the comparison a conditional branch makes of two registers (spec/40_control_flow.md R104
to R106) and the branch on its result. -/

namespace Sys2Proof.Machine

/-- Whether a condition holds of x[ra] and x[rb]: all 32 bits equal, not equal, or less than as two's-complement
values (R104, R105, R106). -/
def condHolds (c : Cond) (a b : Word) : Bool :=
  match c with
  | .eq => a == b
  | .ne => a != b
  | .lt => a.slt b

/-- A branch taken to `pc + 2 * sext_32(off7)` where the condition holds of the two registers, else `pc + 2`. -/
def branchOn (c : Cond) (ra rb : Reg) (off : BitVec 7) (s : State) : State :=
  if condHolds c (s.reg ra) (s.reg rb) then s.setPc (relTarget s.pc off) else s.advance

end Sys2Proof.Machine
end

