-- ==== Sys2Proof/Machine/ControlFlow.lean ====
section
/-! DEFINITION. The control-flow instructions (spec/40_control_flow.md). No delay slot, no implicit link (R108). -/

namespace Sys2Proof.Machine

/-- BAL (R101). -/
def execBal (off : BitVec 12) (s : State) : Host.Outcome State Fault Refusal :=
  .next (s.setPc (relTarget s.pc off))

/-- BIN (R102): the whole register, no bit masked. -/
def execBin (ra : Reg) (s : State) : Host.Outcome State Fault Refusal :=
  .next (s.setPc (s.reg ra))

/-- BEQ (R104). -/
def execBeq (ra rb : Reg) (off : BitVec 7) (s : State) : Host.Outcome State Fault Refusal :=
  .next (branchOn .eq ra rb off s)

/-- BNE (R105). -/
def execBne (ra rb : Reg) (off : BitVec 7) (s : State) : Host.Outcome State Fault Refusal :=
  .next (branchOn .ne ra rb off s)

/-- BLT (R106). -/
def execBlt (ra rb : Reg) (off : BitVec 7) (s : State) : Host.Outcome State Fault Refusal :=
  .next (branchOn .lt ra rb off s)

/-- ADR (R107). -/
def execAdr (rd : Reg) (off : BitVec 10) (s : State) : Host.Outcome State Fault Refusal :=
  .next (s.writeAndAdvance rd (relTarget s.pc off))

end Sys2Proof.Machine
end

