-- ==== Sys2Proof/Machine/ExtSys.lean ====
section
/-! DEFINITION. EXT and SYS (spec/45_ext_sys.md). The manual gives neither an effect: EXT is the implementer's (R161),
and an undefined SYS is undefined behaviour, with none defined (R163). Both stop, by the names the spec gives, which
are the defaults of EXT_SEM and SYS_SEM. A platform that defines them is in Machine/Platform.lean. -/

namespace Sys2Proof.Machine

/-- EXT_SEM (R161): from imm8 and the state to an outcome. -/
abbrev ExtSem := BitVec 8 → State → Host.Outcome State Fault Refusal

/-- SYS_SEM (R163): from imm4 and the state to an outcome. -/
abbrev SysSem := BitVec 4 → State → Host.Outcome State Fault Refusal

/-- The default EXT_SEM: no extension is implemented (R161). -/
def noExtension : ExtSem :=
  fun imm8 _ => .fault (.extUndefined imm8)

/-- The default SYS_SEM: all sixteen words are undefined behaviour (R163). -/
def noSystemFunction : SysSem :=
  fun imm4 _ => .fault (.sysUndefined imm4)

/-- EXT, form 1 (R65, R161). -/
def execExt1 (imm : BitVec 4) (s : State) : Host.Outcome State Fault Refusal :=
  noExtension (extOperandLow imm) s

/-- EXT, form 2 (R66, R161). -/
def execExt2 (imm : BitVec 4) (s : State) : Host.Outcome State Fault Refusal :=
  noExtension (extOperandHigh imm) s

/-- SYS (R163). -/
def execSys (imm : BitVec 4) (s : State) : Host.Outcome State Fault Refusal :=
  noSystemFunction imm s

end Sys2Proof.Machine
end

