-- ==== Sys2Proof/Machine/IntegerAlu.lean ====
section
/-! DEFINITION. The integer instructions (spec/41_integer_alu.md). Sources are read before the destination is written,
no flag exists, none can fault, pc advances by 2 (R110); sums wrap modulo 2^32 (R122). -/

namespace Sys2Proof.Machine

/-- AND (R111). -/
def execAnd (rd ra rb : Reg) (s : State) : Host.Outcome State Fault Refusal :=
  .next (s.writeAndAdvance rd (s.reg ra &&& s.reg rb))

/-- ORR (R112). -/
def execOrr (rd ra rb : Reg) (s : State) : Host.Outcome State Fault Refusal :=
  .next (s.writeAndAdvance rd (s.reg ra ||| s.reg rb))

/-- XOR (R113). -/
def execXor (rd ra rb : Reg) (s : State) : Host.Outcome State Fault Refusal :=
  .next (s.writeAndAdvance rd (s.reg ra ^^^ s.reg rb))

/-- SHL (R114). -/
def execShl (rd ra rb : Reg) (s : State) : Host.Outcome State Fault Refusal :=
  .next (s.writeAndAdvance rd (shiftLeft (s.reg ra) (shiftCount s.cfg.shiftAmount (s.reg rb))))

/-- SHR (R115). -/
def execShr (rd ra rb : Reg) (s : State) : Host.Outcome State Fault Refusal :=
  .next (s.writeAndAdvance rd (shiftRight s.cfg.shrKind (s.reg ra) (shiftCount s.cfg.shiftAmount (s.reg rb))))

/-- ADD (R116). -/
def execAdd (rd ra rb : Reg) (s : State) : Host.Outcome State Fault Refusal :=
  .next (s.writeAndAdvance rd (s.reg ra + s.reg rb))

/-- SUB (R117): ra minus rb. -/
def execSub (rd ra rb : Reg) (s : State) : Host.Outcome State Fault Refusal :=
  .next (s.writeAndAdvance rd (s.reg ra - s.reg rb))

/-- INC (R118). -/
def execInc (rz : Reg) (imm : BitVec 5) (s : State) : Host.Outcome State Fault Refusal :=
  .next (s.writeAndAdvance rz (s.reg rz + zeroExt imm))

/-- DEC (R119). -/
def execDec (rz : Reg) (imm : BitVec 5) (s : State) : Host.Outcome State Fault Refusal :=
  .next (s.writeAndAdvance rz (s.reg rz - zeroExt imm))

/-- SLI (R120). -/
def execSli (rd ra : Reg) (imm : BitVec 5) (s : State) : Host.Outcome State Fault Refusal :=
  .next (s.writeAndAdvance rd (shiftLeft (s.reg ra) imm.toNat))

/-- SRI (R121). -/
def execSri (rd ra : Reg) (imm : BitVec 5) (s : State) : Host.Outcome State Fault Refusal :=
  .next (s.writeAndAdvance rd (shiftRight s.cfg.shrKind (s.reg ra) imm.toNat))

end Sys2Proof.Machine
end

