-- ==== Sys2Proof/Machine/LoadImmediate.lean ====
section
/-! DEFINITION. IMM (spec/44_immediate.md). The order of the five bits in the word is the decoder's (R151). -/

namespace Sys2Proof.Machine

/-- IMM (R150). -/
def execImm (rd : Reg) (imm : BitVec 5) (s : State) : Host.Outcome State Fault Refusal :=
  .next (s.writeAndAdvance rd (signExt imm))

end Sys2Proof.Machine
end

