-- ==== Sys2Proof/Machine/LoadStore.lean ====
section
/-! DEFINITION. LDW and STW (spec/43_load_store.md), the only instructions that reach memory (R41). One addressing
mode, register indirect (R140). The checks stand in the order of R203. -/

namespace Sys2Proof.Machine

/-- LDW (R141, R143): the address is read before rd is written. -/
def execLdw (rd ra : Reg) (s : State) : Host.Outcome State Fault Refusal :=
  finish do
    checkRaField s.cfg ra (encodeWord s.cfg (.ldw rd ra))
    checkDataAlign s.cfg (s.reg ra)
    let v ← memReadWord s (s.reg ra)
    return s.writeAndAdvance rd v

/-- STW (R142, R143): rd holds the address, ra the value. -/
def execStw (rd ra : Reg) (s : State) : Host.Outcome State Fault Refusal :=
  finish do
    checkRaField s.cfg ra (encodeWord s.cfg (.stw rd ra))
    checkDataAlign s.cfg (s.reg rd)
    let t ← memWriteWord s (s.reg rd) (s.reg ra)
    return t.advance

end Sys2Proof.Machine
end

