-- ==== Sys2Proof/Machine/Multiply.lean ====
section
/-! DEFINITION. MUL (spec/42_multiply.md). There is no other multiply and no divide (R131). -/

namespace Sys2Proof.Machine

/-- MUL (R130): the low 32 bits of the unsigned product, to rz. -/
def execMul (rz ra : Reg) (s : State) : Host.Outcome State Fault Refusal :=
  .next (s.writeAndAdvance rz (mulLow (s.reg rz) (s.reg ra)))

end Sys2Proof.Machine
end

