-- ==== Sys2Proof/Machine/Dispatch.lean ====
section
/-! DEFINITION. One arm for each constructor of Instr. -/

namespace Sys2Proof.Machine

/-- The meaning of an instruction in a state. -/
def exec (i : Instr) (s : State) : Host.Outcome State Fault Refusal :=
  match i with
  -- spec/40_control_flow.md
  | .bal off => Sys2Proof.Machine.execBal off s
  -- spec/45_ext_sys.md
  | .ext1 imm => Sys2Proof.Machine.execExt1 imm s
  | .ext2 imm => Sys2Proof.Machine.execExt2 imm s
  -- spec/42_multiply.md
  | .mul rz ra => Sys2Proof.Machine.execMul rz ra s
  | .bin ra => Sys2Proof.Machine.execBin ra s
  | .sys imm => Sys2Proof.Machine.execSys imm s
  -- spec/44_immediate.md
  | .imm rd imm => Sys2Proof.Machine.execImm rd imm s
  | .beq ra rb off => Sys2Proof.Machine.execBeq ra rb off s
  | .bne ra rb off => Sys2Proof.Machine.execBne ra rb off s
  | .blt ra rb off => Sys2Proof.Machine.execBlt ra rb off s
  | .adr rd off => Sys2Proof.Machine.execAdr rd off s
  -- spec/41_integer_alu.md
  | .and rd ra rb => Sys2Proof.Machine.execAnd rd ra rb s
  | .orr rd ra rb => Sys2Proof.Machine.execOrr rd ra rb s
  | .xor rd ra rb => Sys2Proof.Machine.execXor rd ra rb s
  | .shl rd ra rb => Sys2Proof.Machine.execShl rd ra rb s
  | .shr rd ra rb => Sys2Proof.Machine.execShr rd ra rb s
  | .add rd ra rb => Sys2Proof.Machine.execAdd rd ra rb s
  | .sub rd ra rb => Sys2Proof.Machine.execSub rd ra rb s
  -- spec/43_load_store.md
  | .ldw rd ra => Sys2Proof.Machine.execLdw rd ra s
  | .stw rd ra => Sys2Proof.Machine.execStw rd ra s
  | .inc rz imm => Sys2Proof.Machine.execInc rz imm s
  | .dec rz imm => Sys2Proof.Machine.execDec rz imm s
  | .sli rd ra imm => Sys2Proof.Machine.execSli rd ra imm s
  | .sri rd ra imm => Sys2Proof.Machine.execSri rd ra imm s

end Sys2Proof.Machine
end

