-- ==== Sys2Proof/Machine/Step.lean ====
section
/-! DEFINITION. One step: fetch, decode, execute (spec/60_exceptions.md R202), and the state in which a given word is
the next to be fetched. -/

namespace Sys2Proof.Machine

/-- A step of the machine. -/
def step (s : State) : Host.Outcome State Fault Refusal :=
  match fetch s with
  | .error f => .fault f
  | .ok w =>
    match decode s.cfg w with
    | .ok i => exec i s
    | .error _ => .refused (.undecodable w)

/-- `s` with the instruction whose bits are `w` stored where `step` fetches next. An instruction is 16 bits (R60). -/
def State.withFetchWord (s : State) (nbits w : Nat) : State :=
  s.readyToFetch (BitVec.ofNat 16 (w % 2 ^ nbits))

end Sys2Proof.Machine
end

