-- ==== Sys2Proof/Machine/Assembler.lean ====
section
/-! DEFINITION. The source forms of spec/46_pseudo.md: the usage lines of the real instructions (R171) and the twelve
pseudo-instructions (R173 to R188), each with the words it stands for and the operands an assembler must reject
(R172). Labels are addresses and immediates are numbers here: the text syntax is not in the sources (N30 to N33), and
the assembler as a program is out of scope (R6). The machine never sees a pseudo-instruction (R173). -/

namespace Sys2Proof.Machine

/-- The names of the registers (R23). -/
def registerNames : List (String × Reg) :=
  [("r0", 0#4), ("r1", 1#4), ("r2", 2#4), ("r3", 3#4), ("r4", 4#4), ("r5", 5#4), ("r6", 6#4), ("r7", 7#4),
   ("r8", 8#4), ("r9", 9#4), ("r10", 10#4), ("r11", 11#4), ("r12", 12#4), ("r13", 13#4), ("r14", 14#4),
   ("r15", 15#4)] ++
  [("zero", Reg.zero), ("t0", Reg.t0), ("t1", Reg.t1), ("t2", Reg.t2), ("t3", Reg.t3), ("t4", Reg.t4),
   ("t5", Reg.t5), ("t6", Reg.t6), ("s0", Reg.s0), ("s1", Reg.s1), ("s2", Reg.s2), ("s3", Reg.s3), ("o0", Reg.o0),
   ("o1", Reg.o1), ("a0", Reg.a0), ("a1", Reg.a1), ("sp", Reg.sp), ("lr", Reg.lr)]

/-- The register a name stands for (R23, R170). -/
def registerNamed (name : String) : Option Reg :=
  (registerNames.find? (·.1 == name)).map (·.2)

/-- One line of source. -/
inductive Line where
  | bal (label : Word)
  | bin (ra : Reg)
  | beq (ra rb : Reg) (label : Word)
  | bne (ra rb : Reg) (label : Word)
  | blt (ra rb : Reg) (label : Word)
  | adr (rd : Reg) (label : Word)
  | and (rd ra rb : Reg)
  | orr (rd ra rb : Reg)
  | xor (rd ra rb : Reg)
  | shl (rd ra rb : Reg)
  | shr (rd ra rb : Reg)
  | add (rd ra rb : Reg)
  | sub (rd ra rb : Reg)
  | inc (rz : Reg) (imm : Nat)
  | dec (rz : Reg) (imm : Nat)
  | sli (rd ra : Reg) (imm : Nat)
  | sri (rd ra : Reg) (imm : Nat)
  /-- `mul <rz>, <rz>, <ra>`: the first two operands must be one register (R130). -/
  | mul (rz rz' ra : Reg)
  | ldw (rd ra : Reg)
  | stw (rd ra : Reg)
  /-- The one-word form, -16 to 15 (R150). -/
  | imm (rd : Reg) (imm : Int)
  | ext (imm : Nat)
  | sys (imm : Nat)
  /-- R174. -/
  | hlt
  /-- R175. -/
  | nop
  /-- R176. -/
  | ret
  /-- R177. -/
  | rst
  /-- R178. -/
  | blk (label : Word)
  /-- R179. -/
  | mov (rd ra : Reg)
  /-- R180. -/
  | neg (rd ra : Reg)
  /-- The two-word form of `imm`, its operand `value` being the 32-bit literal at the address `literal` (R183);
  `literalOf` is the `word` line that stands there. -/
  | imm32 (rd : Reg) (value literal : Word)
  /-- R184. -/
  | psh (rs : List Reg)
  /-- R185. -/
  | pop (rs : List Reg)
  /-- R186. -/
  | word (imm : Word)
  /-- R187. -/
  | hword (imm : Half)
  deriving DecidableEq, Repr

/-- Why a line is rejected (R172). -/
inductive AsmError where
  /-- A register or pair the instruction cannot name, or a zero immediate where none is allowed. -/
  | operands (e : IllFormed)
  /-- A target at an odd distance, or out of the reach of the offset. -/
  | target
  /-- An immediate outside its range. -/
  | immediate
  /-- `mul` with different first and second operands. -/
  | mulOperands
  /-- `psh` or `pop` of no register. -/
  | noRegister
  /-- An LDW or STW with ra = r0, which the table can encode and the manual's prose forbids (R143, C2). -/
  | proseForbids
  deriving DecidableEq, Repr

/-- The offset field that reaches `target` from the instruction at `here` (R100, R101, R104, R107): half the distance,
which must be even, as an n-bit two's-complement number. -/
def offsetField (n : Nat) (here target : Word) : Except AsmError (BitVec n) :=
  let d := (target - here).toInt
  if d % 2 = 0 ∧ -(2 ^ (n - 1) : Int) ≤ d / 2 ∧ d / 2 < (2 ^ (n - 1) : Int) then .ok (BitVec.ofInt n (d / 2))
  else .error .target

/-- An unsigned immediate of n bits. -/
def unsignedField (n v : Nat) : Except AsmError (BitVec n) :=
  if v < 2 ^ n then .ok (BitVec.ofNat n v) else .error .immediate

/-- A two's-complement immediate of n bits. -/
def signedField (n : Nat) (v : Int) : Except AsmError (BitVec n) :=
  if -(2 ^ (n - 1) : Int) ≤ v ∧ v < (2 ^ (n - 1) : Int) then .ok (BitVec.ofInt n v) else .error .immediate

/-- The EXT of an 8-bit operand, of which one hexadecimal digit must be 0 (R160, R172). -/
def extInstr (v : Nat) : Except AsmError Instr :=
  if v < 16 then .ok (.ext1 (BitVec.ofNat 4 v))
  else if v < 256 ∧ v % 16 = 0 then .ok (.ext2 (BitVec.ofNat 4 (v / 16)))
  else .error .immediate

/-- The words of some instructions, one after another. -/
def encodeAll (cfg : Config) (is : List Instr) : Except AsmError (List Half) :=
  match is with
  | [] => .ok []
  | i :: rest =>
    match encode cfg i with
    | .error e => .error (.operands e)
    | .ok w =>
      match encodeAll cfg rest with
      | .error e => .error e
      | .ok ws => .ok (w :: ws)

/-- The composition of `psh` (R184). -/
def pshInstrs (rs : List Reg) : List Instr :=
  rs.flatMap fun r => [.dec Reg.sp 4#5, .stw Reg.sp r]

/-- The composition of `pop` (R185). -/
def popInstrs (rs : List Reg) : List Instr :=
  rs.flatMap fun r => [.ldw r Reg.sp, .inc Reg.sp 4#5]

/-- The two half words of a `word`, in the order that makes a load of their address return it (R48, R186). -/
def wordHalves (e : Endian) (v : Word) : List Half :=
  match e with
  | .little => [v.extractLsb' 0 16, v.extractLsb' 16 16]
  | .big => [v.extractLsb' 16 16, v.extractLsb' 0 16]

/-- The instructions a line at address `here` stands for; `none` for raw data. -/
def lineInstrs (here : Word) (l : Line) : Except AsmError (List Instr) :=
  match l with
  | .bal t => do return [.bal (← offsetField 12 here t)]
  | .bin ra => .ok [.bin ra]
  | .beq ra rb t => do return [.beq ra rb (← offsetField 7 here t)]
  | .bne ra rb t => do return [.bne ra rb (← offsetField 7 here t)]
  | .blt ra rb t => do return [.blt ra rb (← offsetField 7 here t)]
  | .adr rd t => do return [.adr rd (← offsetField 10 here t)]
  | .and rd ra rb => .ok [.and rd ra rb]
  | .orr rd ra rb => .ok [.orr rd ra rb]
  | .xor rd ra rb => .ok [.xor rd ra rb]
  | .shl rd ra rb => .ok [.shl rd ra rb]
  | .shr rd ra rb => .ok [.shr rd ra rb]
  | .add rd ra rb => .ok [.add rd ra rb]
  | .sub rd ra rb => .ok [.sub rd ra rb]
  | .inc rz n => do return [.inc rz (← unsignedField 5 n)]
  | .dec rz n => do return [.dec rz (← unsignedField 5 n)]
  | .sli rd ra n => do return [.sli rd ra (← unsignedField 5 n)]
  | .sri rd ra n => do return [.sri rd ra (← unsignedField 5 n)]
  | .mul rz rz' ra => if rz = rz' then .ok [.mul rz ra] else .error .mulOperands
  | .ldw rd ra => .ok [.ldw rd ra]
  | .stw rd ra => .ok [.stw rd ra]
  | .imm rd v => do return [.imm rd (← signedField 5 v)]
  | .ext n => do return [← extInstr n]
  | .sys n => do return [.sys (← unsignedField 4 n)]
  | .hlt => .ok [.bal 0#12]
  | .nop => .ok [.bal 1#12]
  | .ret => .ok [.bin Reg.lr]
  | .rst => .ok [.bin Reg.zero]
  | .blk t => do return [.adr Reg.lr 2#10, .bal (← offsetField 12 (here + 2#32) t)]
  | .mov rd ra => .ok [.add rd Reg.zero ra]
  | .neg rd ra => .ok [.sub rd Reg.zero ra]
  | .imm32 rd _ lit => do return [.adr rd (← offsetField 10 here lit), .ldw rd rd]
  | .psh rs => if rs = [] then .error .noRegister else .ok (pshInstrs rs)
  | .pop rs => if rs = [] then .error .noRegister else .ok (popInstrs rs)
  | .word _ => .ok []
  | .hword _ => .ok []

/-- The half words of raw data (R186, R187). -/
def lineData (e : Endian) (l : Line) : List Half :=
  match l with
  | .word v => wordHalves e v
  | .hword v => [v]
  | _ => []

/-- Whether the manual's prose forbids an instruction its table can encode: LDW and STW with ra = r0 (R143, R172, C2).
`hword` is the way to assemble such a word (R187). -/
def proseForbids (i : Instr) : Bool :=
  match i with
  | .ldw _ ra => ra == 0#4
  | .stw _ ra => ra == 0#4
  | .bal _ | .ext1 _ | .ext2 _ | .mul _ _ | .bin _ | .sys _ | .imm _ _ | .beq _ _ _ | .bne _ _ _ | .blt _ _ _
  | .adr _ _ | .and _ _ _ | .orr _ _ _ | .xor _ _ _ | .shl _ _ _ | .shr _ _ _ | .add _ _ _ | .sub _ _ _
  | .inc _ _ | .dec _ _ | .sli _ _ _ | .sri _ _ _ => false

/-- The words a line at address `here` puts into the program (R188), or why it is rejected (R172). A line whose
composition holds an instruction that the prose forbids, such as `psh zero`, is rejected with it (R143, log 34). -/
def assembleLine (cfg : Config) (here : Word) (l : Line) : Except AsmError (List Half) :=
  match lineInstrs here l with
  | .error e => .error e
  | .ok is =>
    if is.any proseForbids then .error .proseForbids
    else
      match encodeAll cfg is with
      | .error e => .error e
      | .ok ws => .ok (ws ++ lineData cfg.endian l)

/-- The bytes of some half words, each in ENDIAN order (R48, R222). -/
def imageBytes (e : Endian) (ws : List Half) : List Byte :=
  ws.flatMap fun w => [(halfBytes e w).1, (halfBytes e w).2]

/-- The form of `imm <rd>, v` an assembler chooses, given the address it would put a literal at: the one-word form for
-16 to 15, and for any other 32-bit operand the two-word form (R150, R183). An operand is 32 bits when it is one as a
signed or as an unsigned number (log 35). -/
def immLine (rd : Reg) (v : Int) (literal : Word) : Except AsmError Line :=
  if -16 ≤ v ∧ v ≤ 15 then .ok (.imm rd v)
  else if -2147483648 ≤ v ∧ v < 4294967296 then .ok (.imm32 rd (BitVec.ofInt 32 v) literal)
  else .error .immediate

/-- The literal a line puts elsewhere in the program: its address and the `word` line that stands there (R183, R186). -/
def literalOf (l : Line) : Option (Word × Line) :=
  match l with
  | .imm32 _ value literal => some (literal, .word value)
  | _ => none

/-- The literal of a line placed at its address, as the program image does (R183, R222). -/
def State.placeLiteral (s : State) (l : Line) : State :=
  match literalOf l with
  | some (a, data) => s.placeBytes a (imageBytes s.cfg.endian (lineData s.cfg.endian data))
  | none => s

end Sys2Proof.Machine
end

