-- ==== Sys2Proof/Machine/Platform.lean ====
section
/-! DEFINITION. The machine of a platform that defines EXT_SEM and SYS_SEM (spec/45_ext_sys.md R161, R163): the two
parameters of R9 that are functions of the state. Whatever they do, r0 reads 0, since no state holds another value
for it (R22). `step` is this machine with the spec's defaults. -/

namespace Sys2Proof.Machine

/-- The meaning of an instruction where the platform gives EXT and SYS theirs. -/
def execWith (ext : ExtSem) (sys : SysSem) (i : Instr) (s : State) : Host.Outcome State Fault Refusal :=
  match i with
  | .ext1 imm => ext (extOperandLow imm) s
  | .ext2 imm => ext (extOperandHigh imm) s
  | .sys imm => sys imm s
  | .bal off => exec (.bal off) s
  | .mul rz ra => exec (.mul rz ra) s
  | .bin ra => exec (.bin ra) s
  | .imm rd imm => exec (.imm rd imm) s
  | .beq ra rb off => exec (.beq ra rb off) s
  | .bne ra rb off => exec (.bne ra rb off) s
  | .blt ra rb off => exec (.blt ra rb off) s
  | .adr rd off => exec (.adr rd off) s
  | .and rd ra rb => exec (.and rd ra rb) s
  | .orr rd ra rb => exec (.orr rd ra rb) s
  | .xor rd ra rb => exec (.xor rd ra rb) s
  | .shl rd ra rb => exec (.shl rd ra rb) s
  | .shr rd ra rb => exec (.shr rd ra rb) s
  | .add rd ra rb => exec (.add rd ra rb) s
  | .sub rd ra rb => exec (.sub rd ra rb) s
  | .ldw rd ra => exec (.ldw rd ra) s
  | .stw rd ra => exec (.stw rd ra) s
  | .inc rz imm => exec (.inc rz imm) s
  | .dec rz imm => exec (.dec rz imm) s
  | .sli rd ra imm => exec (.sli rd ra imm) s
  | .sri rd ra imm => exec (.sri rd ra imm) s

/-- A step of that machine. -/
def stepWith (ext : ExtSem) (sys : SysSem) (s : State) : Host.Outcome State Fault Refusal :=
  match fetch s with
  | .error f => .fault f
  | .ok w =>
    match decode s.cfg w with
    | .ok i => execWith ext sys i s
    | .error _ => .refused (.undecodable w)

end Sys2Proof.Machine
end

