-- ==== Sys2Proof/Machine/Run.lean ====
section
/-! DEFINITION. Before a run and at its end: placing the image (spec/70_reset_and_hazards.md R222; spec/60_exceptions.md
R205), the end of a run (R228) and its outcomes. No step does any of this. -/

namespace Sys2Proof.Machine

/-- The image placed with its first byte at address 0 (R222 (a)). -/
def State.loadImage (s : State) (image : List Byte) : State :=
  s.placeBytes 0#32 image

/-- The state before the first step of a run: reset, one draw of the registers, the platform's parameters, the image
(R33, R222). -/
def bootState (draw : Vector Word 15) (cfg : Config) (image : List Byte) : State :=
  (State.resetWith draw cfg).loadImage image

/-- Whether MEM_REGIONS contains an image of `n` bytes at 0 (R50, R222 (b)). -/
def imageMapped (cfg : Config) (n : Nat) : Bool :=
  (List.range n).all fun i => isMapped cfg (BitVec.ofNat 32 i)

/-- The run has ended normally: the instruction at an even, mapped and (as SMC_POLICY asks) unmodified `pc` is the
word 0x0000 (R228). -/
def isHalted (s : State) : Bool :=
  isEven s.pc &&
    match fetch s with
    | .ok w => w == 0x0000#16
    | .error _ => false

/-- The outcome of a run, observed after a bounded number of steps (R228; S14: running out of steps is no halt). -/
inductive RunOutcome where
  | halted (s : State)
  /-- The fault and the state at it, which is the state before the faulting step (R204). -/
  | faulted (f : Fault) (s : State)
  | stillRunning (s : State)
  | refused (r : Refusal)
  deriving DecidableEq, Repr

/-- A run of at most `n` steps. -/
def runFor (n : Nat) (s : State) : RunOutcome :=
  if isHalted s then .halted s
  else
    match n with
    | 0 => .stillRunning s
    | k + 1 =>
      match step s with
      | .next t => runFor k t
      | .fault f => .faulted f s
      | .refused r => .refused r

end Sys2Proof.Machine
end

