-- ==== Sys2Proof/Safety.lean ====
section
/-! DEFINITION. The terms the claims are made in: what an instruction leaves unchanged, which registers it names, what
guards a data access, and the invariant of the machine. -/

namespace Sys2Proof.Machine

/-- Every byte of memory reads as before. -/
def SameMemory (s t : State) : Prop :=
  ∀ a : Word, t.byte? a = s.byte? a

/-- Every register reads as before. -/
def SameRegs (s t : State) : Prop :=
  ∀ r : Reg, t.reg r = s.reg r

/-- What no instruction but STW and none at all changes: the bookkeeping of R44, the parameters of R9. -/
def SameBookkeeping (s t : State) : Prop :=
  t.written = s.written ∧ t.cfg = s.cfg

/-- From `s` to `t`, `rd` has come to hold `v` (r0 reads 0 whatever is written, R21), pc has advanced by 2, and
nothing else has changed. -/
def OnlyRegister (s t : State) (rd : Reg) (v : Word) : Prop :=
  t.reg rd = (if rd = 0#4 then 0#32 else v) ∧ (∀ r, r ≠ rd → t.reg r = s.reg r) ∧ t.pc = s.pc + 2#32 ∧
    SameMemory s t ∧ SameBookkeeping s t

/-- From `s` to `t`, pc has become `p` and nothing else has changed. -/
def OnlyPc (s t : State) (p : Word) : Prop :=
  t.pc = p ∧ SameRegs s t ∧ SameMemory s t ∧ SameBookkeeping s t

/-- The four byte addresses of a word access, modulo 2^32 (R43, R44). -/
def wordByteAddr (a : Word) (k : Nat) : Word :=
  a + BitVec.ofNat 32 k

/-- From `s` to `t`, the word `v` has been stored at `a`: its four bytes, in ENDIAN order, and their entries in
`written`; pc has advanced by 2; every other byte and all else are unchanged. -/
def OnlyStored (s t : State) (a v : Word) : Prop :=
  (∀ k < 4, t.byte? (wordByteAddr a k) =
      some (match s.cfg.endian with
        | .little => v.extractLsb' (8 * k) 8
        | .big => v.extractLsb' (8 * (3 - k)) 8)) ∧
    (∀ b : Word, (∀ k < 4, b ≠ wordByteAddr a k) → t.byte? b = s.byte? b) ∧
    (∀ n : Nat, n ∈ t.written ↔ n ∈ s.written ∨ ∃ k < 4, n = (wordByteAddr a k).toNat) ∧
    SameRegs s t ∧ t.pc = s.pc + 2#32 ∧ t.cfg = s.cfg

/-- `x` is `v` shifted left by `n` places, zeros entering at bit 0 and bits leaving at the top lost; for `n` of 32 or
more it is 0 (R10, R114). -/
def ShiftedLeft (v : Word) (n : Nat) (x : Word) : Prop :=
  ∀ i < 32, x.getLsbD i = (decide (n ≤ i) && v.getLsbD (i - n))

/-- `x` is `v` shifted right by `n` places, zeros or copies of bit 31 entering at bit 31 (R10, R115). -/
def ShiftedRight (k : ShrKind) (v : Word) (n : Nat) (x : Word) : Prop :=
  ∀ i < 32, x.getLsbD i =
    if i + n < 32 then v.getLsbD (i + n)
    else match k with
      | .logical => false
      | .arithmetic => v.getLsbD 31

/-- MEM_RA_ZERO lets an LDW or STW with this `ra` field run (R143). -/
def RaAllowed (cfg : Config) (ra : Reg) : Prop :=
  cfg.memRaZero = .execute ∨ ra ≠ 0#4

/-- DATA_ALIGN_POLICY lets a data access to this address run (R45). -/
def AlignAllowed (cfg : Config) (a : Word) : Prop :=
  cfg.dataAlign = .split ∨ a.toNat % 4 = 0

/-- MEM_REGIONS contains the `n` bytes of an access (R43, R44). -/
def AllMapped (cfg : Config) (a : Word) (n : Nat) : Prop :=
  ∀ k < n, isMapped cfg (a + BitVec.ofNat 32 k) = true

/-- The first byte of an access of `n` bytes that MEM_REGIONS does not contain is at offset `k`. -/
def FirstUnmapped (cfg : Config) (a : Word) (n k : Nat) : Prop :=
  k < n ∧ isMapped cfg (a + BitVec.ofNat 32 k) = false ∧ ∀ j < k, isMapped cfg (a + BitVec.ofNat 32 j) = true

/-- The four bytes at `a` hold `b0` to `b3`. -/
def HoldsBytes (s : State) (a : Word) (b0 b1 b2 b3 : Byte) : Prop :=
  s.byte? a = some b0 ∧ s.byte? (a + 1#32) = some b1 ∧ s.byte? (a + 2#32) = some b2 ∧ s.byte? (a + 3#32) = some b3

/-- The destination register of an instruction, where it has one (R22, R78). -/
def destReg (i : Instr) : Option Reg :=
  match i with
  | .mul rz _ => some rz
  | .imm rd _ => some rd
  | .adr rd _ => some rd
  | .and rd _ _ => some rd
  | .orr rd _ _ => some rd
  | .xor rd _ _ => some rd
  | .shl rd _ _ => some rd
  | .shr rd _ _ => some rd
  | .add rd _ _ => some rd
  | .sub rd _ _ => some rd
  | .ldw rd _ => some rd
  | .inc rz _ => some rz
  | .dec rz _ => some rz
  | .sli rd _ _ => some rd
  | .sri rd _ _ => some rd
  | .bal _ => none
  | .ext1 _ => none
  | .ext2 _ => none
  | .bin _ => none
  | .sys _ => none
  | .beq _ _ _ => none
  | .bne _ _ _ => none
  | .blt _ _ _ => none
  | .stw _ _ => none

/-- The registers a field of the instruction names, read or written (R24, R78). -/
def namedRegs (i : Instr) : List Reg :=
  match i with
  | .mul rz ra => [rz, ra]
  | .imm rd _ => [rd]
  | .adr rd _ => [rd]
  | .and rd ra rb => [rd, ra, rb]
  | .orr rd ra rb => [rd, ra, rb]
  | .xor rd ra rb => [rd, ra, rb]
  | .shl rd ra rb => [rd, ra, rb]
  | .shr rd ra rb => [rd, ra, rb]
  | .add rd ra rb => [rd, ra, rb]
  | .sub rd ra rb => [rd, ra, rb]
  | .ldw rd ra => [rd, ra]
  | .inc rz _ => [rz]
  | .dec rz _ => [rz]
  | .sli rd ra _ => [rd, ra]
  | .sri rd ra _ => [rd, ra]
  | .bal _ => []
  | .ext1 _ => []
  | .ext2 _ => []
  | .bin ra => [ra]
  | .sys _ => []
  | .beq ra rb _ => [ra, rb]
  | .bne ra rb _ => [ra, rb]
  | .blt ra rb _ => [ra, rb]
  | .stw rd ra => [rd, ra]

/-- Whether the instruction is LDW or STW, the two that reach memory (R41). -/
def reachesMemory (i : Instr) : Bool :=
  match i with
  | .ldw _ _ => true
  | .stw _ _ => true
  | .bal _ => false
  | .ext1 _ => false
  | .ext2 _ => false
  | .mul _ _ => false
  | .bin _ => false
  | .sys _ => false
  | .imm _ _ => false
  | .beq _ _ _ => false
  | .bne _ _ _ => false
  | .blt _ _ _ => false
  | .adr _ _ => false
  | .and _ _ _ => false
  | .orr _ _ _ => false
  | .xor _ _ _ => false
  | .shl _ _ _ => false
  | .shr _ _ _ => false
  | .add _ _ _ => false
  | .sub _ _ _ => false
  | .inc _ _ => false
  | .dec _ _ => false
  | .sli _ _ _ => false
  | .sri _ _ _ => false

/-- Whether the instruction is one of the two spaces a platform may define, EXT and SYS (R161, R163). -/
def isPlatformSpace (i : Instr) : Bool :=
  match i with
  | .ext1 _ => true
  | .ext2 _ => true
  | .sys _ => true
  | .bal _ => false
  | .mul _ _ => false
  | .bin _ => false
  | .imm _ _ => false
  | .beq _ _ _ => false
  | .bne _ _ _ => false
  | .blt _ _ _ => false
  | .adr _ _ => false
  | .and _ _ _ => false
  | .orr _ _ _ => false
  | .xor _ _ _ => false
  | .shl _ _ _ => false
  | .shr _ _ _ => false
  | .add _ _ _ => false
  | .sub _ _ _ => false
  | .ldw _ _ => false
  | .stw _ _ => false
  | .inc _ _ => false
  | .dec _ _ => false
  | .sli _ _ _ => false
  | .sri _ _ _ => false

/-- Some instructions executed one after another, each in the state the one before it left. -/
def execSeq (is : List Instr) (s : State) : Host.Outcome State Fault Refusal :=
  match is with
  | [] => .next s
  | i :: rest =>
    match exec i s with
    | .next t => execSeq rest t
    | .fault f => .fault f
    | .refused r => .refused r

/-- The invariant of the machine: memory and the set of written bytes are in their canonical forms, and every byte an
STW wrote holds a value. -/
def MachineInv (s : State) : Prop :=
  Memory.wf s.mem = true ∧ rising none s.written = true ∧ ∀ n ∈ s.written, (memLookup s.mem n).isSome = true

end Sys2Proof.Machine
end

