-- ==== Sys2Proof/Certificates/Slice0/Obligations.lean ====
section
/-! DEFINITION. The statements. A parameter of R9 is quantified over wherever a rule leaves it open, so that no statement
rests on a default. Where a clause rests on a decision the spec marks as its own (D<n>) or on a choice of the model
(log <n>), its docstring says so. No statement rests on the value a register holds at reset. -/

open Sys2Proof Sys2Proof.Machine

/-! Encoding (spec/30_encoding.md). -/

/-- R63, R81: the opcode map is total, and a decoded instruction violates no operand constraint. -/
def Obligations.EveryWordIsAWellFormedInstruction : Prop :=
  ∀ (cfg : Config) (w : Half), ∃ i, decode cfg w = .ok i ∧ wellFormed cfg i = true

/-- R83: `decode(encode(i)) = i` for every instruction that can be encoded, under every parameter. -/
def Obligations.DecodingAnEncodedInstructionGivesItBack : Prop :=
  ∀ (cfg : Config) (i : Instr), wellFormed cfg i = true → ∃ w, encode cfg i = .ok w ∧ decode cfg w = .ok i

/-- R83: `encode(decode(W)) = W` for every word, under every parameter. (The two spellings of EXT 0 are one word.) -/
def Obligations.EncodingADecodedWordGivesItBack : Prop :=
  ∀ (cfg : Config) (w : Half) (i : Instr), decode cfg w = .ok i → encode cfg i = .ok w

/-- R79: the order-independent decision tree reads every word as the precedence table does. -/
def Obligations.TheDecisionTreeAgreesWithThePrecedenceTable : Prop :=
  ∀ (cfg : Config) (w : Half), ∃ i, decode cfg w = .ok i ∧ decodeTree cfg w = some i

/-- R80: the word one would write by ignoring an operand constraint is another instruction, the one the table names.
The table uses the default COND_CODES, L_POLARITY and S_POLARITY. -/
def Obligations.AViolatedConstraintEncodesAnotherInstruction : Prop :=
  ∀ (cfg : Config), cfg.condCodes = .eqNeLt → cfg.lPolarity = .oneLoads → cfg.sPolarity = .zeroIsFirst →
    let d := fun i => decode cfg (encodeWord cfg i)
    let isBeq := fun (r : Except DecodeError Instr) => ∃ a b o, r = .ok (.beq a b o)
    let isBne := fun (r : Except DecodeError Instr) => ∃ a b o, r = .ok (.bne a b o)
    let isBlt := fun (r : Except DecodeError Instr) => ∃ a b o, r = .ok (.blt a b o)
    (∀ ra rb, isBne (d (.and 0#4 ra rb)) ∧ isBne (d (.xor 0#4 ra rb)) ∧ isBne (d (.shr 0#4 ra rb)) ∧
      isBne (d (.sub 0#4 ra rb))) ∧
    (∀ ra rb, if ra = 0#4 then d (.orr 0#4 ra rb) = .ok (.bin rb) else ∃ v, d (.orr 0#4 ra rb) = .ok (.imm ra v)) ∧
    (∀ ra rb, if ra = 0#4 then d (.shl 0#4 ra rb) = .ok (.ext1 rb)
      else if rb = 0#4 then d (.shl 0#4 ra rb) = .ok (.ext2 ra) else d (.shl 0#4 ra rb) = .ok (.mul rb ra)) ∧
    (∀ ra rb, if ra = 0#4 then d (.add 0#4 ra rb) = .ok (.sys rb) else ∃ v, d (.add 0#4 ra rb) = .ok (.imm ra v)) ∧
    (∀ off, isBlt (d (.adr 0#4 off))) ∧
    (∀ n, isBeq (d (.inc 0#4 n)) ∧ isBeq (d (.dec 0#4 n))) ∧
    (∀ rz, rz ≠ 0#4 → d (.inc rz 0#5) = .ok (.stw rz 0#4) ∧ d (.dec rz 0#5) = .ok (.ldw rz 0#4)) ∧
    (∀ ra n, isBeq (d (.sli 0#4 ra n)) ∧ isBeq (d (.sri 0#4 ra n))) ∧
    (∀ rd n, rd ≠ 0#4 → n ≠ 0#5 → d (.sli rd 0#4 n) = .ok (.inc rd n) ∧ d (.sri rd 0#4 n) = .ok (.dec rd n)) ∧
    (∀ rd ra, rd ≠ 0#4 → d (.sli rd ra 0#5) = .ok (.stw rd ra) ∧ d (.sri rd ra 0#5) = .ok (.ldw rd ra)) ∧
    (∀ rz ra, if ra = 0#4 then d (.mul rz ra) = .ok (.ext1 rz)
      else rz = 0#4 → d (.mul rz ra) = .ok (.ext2 ra)) ∧
    (∀ ra, isBeq (d (.ldw 0#4 ra)) ∧ isBeq (d (.stw 0#4 ra))) ∧
    (∀ v, (∃ n, d (.imm 0#4 v) = .ok (.bin n) ∧ (fieldOfImm cfg.immBits v).getLsbD 0 = false) ∨
      (∃ n, d (.imm 0#4 v) = .ok (.sys n) ∧ (fieldOfImm cfg.immBits v).getLsbD 0 = true)) ∧
    (∀ (p : BitVec 3) (off : BitVec 7),
      let r := decode cfg (p ++ off ++ 0#2 ++ 0#4 : BitVec (3 + 7 + 2 + 4))
      let k := off.extractLsb' 0 2
      (k = 0#2 → ∃ o, r = .ok (.bal o)) ∧
      (k = 1#2 → (∃ a, r = .ok (.bin a)) ∨ ∃ a v, r = .ok (.imm a v)) ∧
      (k = 2#2 → (∃ n, r = .ok (.ext1 n)) ∨ (∃ n, r = .ok (.ext2 n)) ∨ ∃ a b, r = .ok (.mul a b)) ∧
      (k = 3#2 → (∃ n, r = .ok (.sys n)) ∨ ∃ a v, r = .ok (.imm a v)))

/-- R160: EXT is exactly the words with W[7:0] = 10000000 in which a MUL register field would be r0, and its operand
is W[15:8] in both forms (D26, log 21). -/
def Obligations.ExtIsTheWordsWhereMulWouldNameR0 : Prop :=
  ∀ (cfg : Config) (w : Half),
    (((∃ n, decode cfg w = .ok (.ext1 n)) ∨ ∃ n, decode cfg w = .ok (.ext2 n)) ↔
      w.extractLsb' 0 8 = 0x80#8 ∧ (w.extractLsb' 12 4 = 0#4 ∨ w.extractLsb' 8 4 = 0#4)) ∧
    (∀ n, decode cfg w = .ok (.ext1 n) → extOperandLow n = w.extractLsb' 8 8) ∧
    (∀ n, decode cfg w = .ok (.ext2 n) → extOperandHigh n = w.extractLsb' 8 8)

/-- Words written out from the format tables of R64 to R76, one a format, under the default parameters. -/
def Obligations.WrittenOutWordsDecode : Prop :=
  decodeTableWord 16 0b1111111100001111 = some (.bal 0xFFF#12) ∧
  decodeTableWord 16 0b0000010110000000 = some (.ext1 5#4) ∧
  decodeTableWord 16 0b1111000010000000 = some (.ext2 15#4) ∧
  decodeTableWord 16 0b1101101010000000 = some (.mul 10#4 13#4) ∧
  decodeTableWord 16 0b0000111101000000 = some (.bin 15#4) ∧
  decodeTableWord 16 0b0000001111000000 = some (.sys 3#4) ∧
  decodeTableWord 16 0b1100111011000000 = some (.imm 12#4 0b11101#5) ∧
  decodeTableWord 16 0b0001111110100000 = some (.bne 0#4 1#4 0b1111110#7) ∧
  decodeTableWord 16 0b0000000010111111 = some (.adr 15#4 2#10) ∧
  decodeTableWord 16 0b0001001011100011 = some (.sub 3#4 1#4 2#4) ∧
  decodeTableWord 16 0b0000011101011110 = some (.ldw 14#4 14#4) ∧
  decodeTableWord 16 0b0010000001011110 = some (.dec 14#4 4#5) ∧
  decodeTableWord 16 0b0010010100010001 = some (.sli 1#4 10#4 4#5)

/-! Integer computation (spec/41_integer_alu.md, spec/42_multiply.md, spec/44_immediate.md). -/

/-- R111, R112, R113: encoding, result and frame of AND, ORR and XOR, for rd in r1 to r15. A write to r0 is no form of
them (R22); `ATermThatWritesRegisterZeroChangesNone` says what a term that asks for it does. -/
def Obligations.LogicalInstructionsOperateBitByBit : Prop :=
  (∀ (cfg : Config) (rd ra rb : Reg), rd ≠ 0#4 →
    decode cfg (ra ++ rb ++ 1#3 ++ 0#1 ++ rd : BitVec (4 + 4 + 3 + 1 + 4)) = .ok (.and rd ra rb) ∧
    decode cfg (ra ++ rb ++ 2#3 ++ 0#1 ++ rd : BitVec (4 + 4 + 3 + 1 + 4)) = .ok (.orr rd ra rb) ∧
    decode cfg (ra ++ rb ++ 3#3 ++ 0#1 ++ rd : BitVec (4 + 4 + 3 + 1 + 4)) = .ok (.xor rd ra rb)) ∧
  ∀ (s : State) (rd ra rb : Reg), rd ≠ 0#4 →
    (∃ t, exec (.and rd ra rb) s = .next t ∧ OnlyRegister s t rd (s.reg ra &&& s.reg rb)) ∧
    (∃ t, exec (.orr rd ra rb) s = .next t ∧ OnlyRegister s t rd (s.reg ra ||| s.reg rb)) ∧
    (∃ t, exec (.xor rd ra rb) s = .next t ∧ OnlyRegister s t rd (s.reg ra ^^^ s.reg rb))

/-- R114, R115: encoding, result and frame of SHL and SHR, for rd in r1 to r15 and for each SHIFT_AMOUNT_MODE and
SHR_KIND. -/
def Obligations.VariableShiftsMoveBitsByTheRegisterCount : Prop :=
  (∀ (cfg : Config) (rd ra rb : Reg), rd ≠ 0#4 →
    decode cfg (ra ++ rb ++ 4#3 ++ 0#1 ++ rd : BitVec (4 + 4 + 3 + 1 + 4)) = .ok (.shl rd ra rb) ∧
    decode cfg (ra ++ rb ++ 5#3 ++ 0#1 ++ rd : BitVec (4 + 4 + 3 + 1 + 4)) = .ok (.shr rd ra rb)) ∧
  ∀ (s : State) (rd ra rb : Reg), rd ≠ 0#4 →
    let n := match s.cfg.shiftAmount with
      | .literal => (s.reg rb).toNat
      | .mod32 => (s.reg rb).toNat % 32
    (∃ t v, exec (.shl rd ra rb) s = .next t ∧ ShiftedLeft (s.reg ra) n v ∧ OnlyRegister s t rd v) ∧
    (∃ t v, exec (.shr rd ra rb) s = .next t ∧ ShiftedRight s.cfg.shrKind (s.reg ra) n v ∧ OnlyRegister s t rd v)

/-- R116, R117: encoding, result and frame of ADD and SUB. That a sum wraps modulo 2^32 is the spec's decision D17
(R122, log 20). -/
def Obligations.SumsAndDifferencesWrap : Prop :=
  (∀ (cfg : Config) (rd ra rb : Reg), rd ≠ 0#4 →
    decode cfg (ra ++ rb ++ 6#3 ++ 0#1 ++ rd : BitVec (4 + 4 + 3 + 1 + 4)) = .ok (.add rd ra rb) ∧
    decode cfg (ra ++ rb ++ 7#3 ++ 0#1 ++ rd : BitVec (4 + 4 + 3 + 1 + 4)) = .ok (.sub rd ra rb)) ∧
  ∀ (s : State) (rd ra rb : Reg),
    (∃ t v, exec (.add rd ra rb) s = .next t ∧ OnlyRegister s t rd v ∧
      v.toNat = ((s.reg ra).toNat + (s.reg rb).toNat) % 2 ^ 32) ∧
    (∃ t v, exec (.sub rd ra rb) s = .next t ∧ OnlyRegister s t rd v ∧
      (v.toNat : Int) = ((s.reg ra).toNat - (s.reg rb).toNat : Int) % 2 ^ 32)

/-- R118, R119: encoding, result and frame of INC and DEC, for each S_POLARITY. The wrap modulo 2^32 is the spec's
decision D17 (R122, log 20). -/
def Obligations.IncrementAndDecrementByTheImmediate : Prop :=
  (∀ (cfg : Config) (rz : Reg) (n : BitVec 5), rz ≠ 0#4 → n ≠ 0#5 →
    let w0 : Half := (n ++ 0#4 ++ 0#1 ++ 1#2 ++ rz : BitVec (5 + 4 + 1 + 2 + 4))
    let w1 : Half := (n ++ 0#4 ++ 1#1 ++ 1#2 ++ rz : BitVec (5 + 4 + 1 + 2 + 4))
    match cfg.sPolarity with
    | .zeroIsFirst => decode cfg w0 = .ok (.inc rz n) ∧ decode cfg w1 = .ok (.dec rz n)
    | .oneIsFirst => decode cfg w1 = .ok (.inc rz n) ∧ decode cfg w0 = .ok (.dec rz n)) ∧
  ∀ (s : State) (rz : Reg) (n : BitVec 5),
    (∃ t v, exec (.inc rz n) s = .next t ∧ OnlyRegister s t rz v ∧
      v.toNat = ((s.reg rz).toNat + n.toNat) % 2 ^ 32) ∧
    (∃ t v, exec (.dec rz n) s = .next t ∧ OnlyRegister s t rz v ∧
      (v.toNat : Int) = ((s.reg rz).toNat - n.toNat : Int) % 2 ^ 32)

/-- R120, R121: encoding, result and frame of SLI and SRI, for rd in r1 to r15 and for each S_POLARITY and SHR_KIND. -/
def Obligations.ImmediateShiftsMoveBitsByTheImmediate : Prop :=
  (∀ (cfg : Config) (rd ra : Reg) (n : BitVec 5), rd ≠ 0#4 → ra ≠ 0#4 → n ≠ 0#5 →
    let w0 : Half := (n ++ ra ++ 0#1 ++ 1#2 ++ rd : BitVec (5 + 4 + 1 + 2 + 4))
    let w1 : Half := (n ++ ra ++ 1#1 ++ 1#2 ++ rd : BitVec (5 + 4 + 1 + 2 + 4))
    match cfg.sPolarity with
    | .zeroIsFirst => decode cfg w0 = .ok (.sli rd ra n) ∧ decode cfg w1 = .ok (.sri rd ra n)
    | .oneIsFirst => decode cfg w1 = .ok (.sli rd ra n) ∧ decode cfg w0 = .ok (.sri rd ra n)) ∧
  ∀ (s : State) (rd ra : Reg) (n : BitVec 5), rd ≠ 0#4 →
    (∃ t v, exec (.sli rd ra n) s = .next t ∧ ShiftedLeft (s.reg ra) n.toNat v ∧ OnlyRegister s t rd v) ∧
    (∃ t v, exec (.sri rd ra n) s = .next t ∧ ShiftedRight s.cfg.shrKind (s.reg ra) n.toNat v ∧ OnlyRegister s t rd v)

/-- R130: encoding, result and frame of MUL. That the destination receives the low 32 bits is the spec's decision D16
(log 19). -/
def Obligations.MultiplyKeepsTheLowWordOfTheProduct : Prop :=
  (∀ (cfg : Config) (rz ra : Reg), rz ≠ 0#4 → ra ≠ 0#4 →
    decode cfg (ra ++ rz ++ 0x80#8 : BitVec (4 + 4 + 8)) = .ok (.mul rz ra)) ∧
  ∀ (s : State) (rz ra : Reg),
    ∃ t v, exec (.mul rz ra) s = .next t ∧ OnlyRegister s t rz v ∧
      v.toNat = ((s.reg rz).toNat * (s.reg ra).toNat) % 2 ^ 32 ∧
      -- the same low word for signed factors
      v = BitVec.ofInt 32 ((s.reg rz).toInt * (s.reg ra).toInt)

/-- R150, R151: encoding under both orders of the immediate bits, result and frame of IMM. -/
def Obligations.LoadImmediateSignExtends : Prop :=
  (∀ (cfg : Config) (rd : Reg) (f : BitVec 5), rd ≠ 0#4 →
    decode cfg (rd ++ f ++ 0x40#7 : BitVec (4 + 5 + 7)) =
      .ok (.imm rd (match cfg.immBits with
        | .contiguous => f
        | .signInBit7 => (f.extractLsb' 0 1 ++ f.extractLsb' 1 4 : BitVec (1 + 4))))) ∧
  ∀ (s : State) (rd : Reg) (n : BitVec 5),
    ∃ t v, exec (.imm rd n) s = .next t ∧ OnlyRegister s t rd v ∧ v.toInt = n.toInt

/-! Control flow (spec/40_control_flow.md). -/

/-- R101: encoding, effect and frame of BAL. That the offset counts from the instruction's own address is the spec's
decision D8 (log 7), that the sum wraps D4 (log 6). -/
def Obligations.BranchAlwaysGoesToItsTarget : Prop :=
  (∀ (cfg : Config) (off : BitVec 12),
    decode cfg (off.extractLsb' 4 8 ++ 0#4 ++ off.extractLsb' 0 4 : BitVec (8 + 4 + 4)) = .ok (.bal off)) ∧
  ∀ (s : State) (off : BitVec 12),
    ∃ t, exec (.bal off) s = .next t ∧ OnlyPc s t (BitVec.ofInt 32 (s.pc.toNat + 2 * off.toInt))

/-- R102: encoding, effect and frame of BIN: the whole register, and the fault, if any, belongs to the next fetch. That
an odd target makes that fetch stop under FETCH_ALIGN_POLICY `fault` is the spec's decision D3 (log 11). -/
def Obligations.BranchIndirectGoesToTheRegister : Prop :=
  (∀ (cfg : Config) (ra : Reg), decode cfg (0#4 ++ ra ++ 0x40#8 : BitVec (4 + 4 + 8)) = .ok (.bin ra)) ∧
  ∀ (s : State) (ra : Reg),
    ∃ t, exec (.bin ra) s = .next t ∧ OnlyPc s t (s.reg ra) ∧
      (s.cfg.fetchAlign = .fault → (s.reg ra).toNat % 2 = 1 → step t = .fault (.fetchMisaligned (s.reg ra))) ∧
      ((s.reg ra).toNat % 2 = 0 → isMapped s.cfg (s.reg ra) = false → step t = .fault (.unmapped (s.reg ra)))

/-- R103 to R106: encoding, effect and frame of BEQ, BNE and BLT, for each order of COND_CODES and each PAIR_MAP; BLT
compares two's-complement values. The base of the offset is the spec's decision D8 (log 7). -/
def Obligations.ConditionalBranchesCompareTheirPair : Prop :=
  (∀ (cfg : Config) (p : BitVec 3) (off : BitVec 7),
    let pr := pairRegs cfg.pairMap p
    let w := fun (code : BitVec 2) => decode cfg (p ++ off ++ code ++ 0#4 : BitVec (3 + 7 + 2 + 4))
    w (condCode cfg.condCodes .eq) = .ok (.beq pr.1 pr.2 off) ∧
    w (condCode cfg.condCodes .ne) = .ok (.bne pr.1 pr.2 off) ∧
    w (condCode cfg.condCodes .lt) = .ok (.blt pr.1 pr.2 off)) ∧
  ∀ (s : State) (ra rb : Reg) (off : BitVec 7),
    let taken := BitVec.ofInt 32 (s.pc.toNat + 2 * off.toInt)
    (∃ t, exec (.beq ra rb off) s = .next t ∧
      OnlyPc s t (if s.reg ra = s.reg rb then taken else s.pc + 2#32)) ∧
    (∃ t, exec (.bne ra rb off) s = .next t ∧
      OnlyPc s t (if s.reg ra ≠ s.reg rb then taken else s.pc + 2#32)) ∧
    (∃ t, exec (.blt ra rb off) s = .next t ∧
      OnlyPc s t (if (s.reg ra).toInt < (s.reg rb).toInt then taken else s.pc + 2#32))

/-- R71 and R103 under their defaults (D10, D11, log 14, log 15): the codes 01, 10, 11 and the pair (r(2p), r(2p+1)). -/
def Obligations.TheDefaultCodesAndPairs : Prop :=
  ∀ (cfg : Config) (p : BitVec 3) (off : BitVec 7), cfg.condCodes = .eqNeLt → cfg.pairMap = .evenOdd →
    ∃ ra rb : Reg, ra.toNat = 2 * p.toNat ∧ rb.toNat = 2 * p.toNat + 1 ∧
      decode cfg (p ++ off ++ 1#2 ++ 0#4 : BitVec (3 + 7 + 2 + 4)) = .ok (.beq ra rb off) ∧
      decode cfg (p ++ off ++ 2#2 ++ 0#4 : BitVec (3 + 7 + 2 + 4)) = .ok (.bne ra rb off) ∧
      decode cfg (p ++ off ++ 3#2 ++ 0#4 : BitVec (3 + 7 + 2 + 4)) = .ok (.blt ra rb off)

/-- R107: encoding, result and frame of ADR. That the offset is signed, counts instructions and starts at the
instruction's own address are the spec's decisions D9 and D8 (log 8, log 7). -/
def Obligations.AdrComputesAnAddressRelativeToThePc : Prop :=
  (∀ (cfg : Config) (rd : Reg) (off : BitVec 10), rd ≠ 0#4 →
    decode cfg (off ++ 3#2 ++ rd : BitVec (10 + 2 + 4)) = .ok (.adr rd off)) ∧
  ∀ (s : State) (rd : Reg) (off : BitVec 10),
    ∃ t, exec (.adr rd off) s = .next t ∧ OnlyRegister s t rd (BitVec.ofInt 32 (s.pc.toNat + 2 * off.toInt))

/-! Memory access (spec/43_load_store.md, spec/20_memory.md). -/

/-- R141, R143: encoding, checks, result and frame of LDW, for each L_POLARITY, ENDIAN, DATA_ALIGN_POLICY and
MEM_RA_ZERO. The order of the checks is the spec's decision D28 (log 25). -/
def Obligations.LoadWordReadsTheWordAtTheAddress : Prop :=
  (∀ (cfg : Config) (rd ra : Reg), rd ≠ 0#4 →
    let l : BitVec 1 := match cfg.lPolarity with
      | .oneLoads => 1#1
      | .zeroLoads => 0#1
    decode cfg (0#5 ++ ra ++ l ++ 1#2 ++ rd : BitVec (5 + 4 + 1 + 2 + 4)) = .ok (.ldw rd ra)) ∧
  ∀ (s : State) (rd ra : Reg),
    (¬ RaAllowed s.cfg ra → exec (.ldw rd ra) s = .fault (.constraintViolated (encodeWord s.cfg (.ldw rd ra)))) ∧
    (RaAllowed s.cfg ra → ¬ AlignAllowed s.cfg (s.reg ra) →
      exec (.ldw rd ra) s = .fault (.dataMisaligned (s.reg ra))) ∧
    (RaAllowed s.cfg ra → AlignAllowed s.cfg (s.reg ra) → ∀ k, FirstUnmapped s.cfg (s.reg ra) 4 k →
      exec (.ldw rd ra) s = .fault (.unmapped (s.reg ra + BitVec.ofNat 32 k))) ∧
    (RaAllowed s.cfg ra → AlignAllowed s.cfg (s.reg ra) → AllMapped s.cfg (s.reg ra) 4 →
      ∀ b0 b1 b2 b3, HoldsBytes s (s.reg ra) b0 b1 b2 b3 →
        ∃ t, exec (.ldw rd ra) s = .next t ∧
          OnlyRegister s t rd (match s.cfg.endian with
            | .little => (b3 ++ b2 ++ b1 ++ b0 : BitVec (8 + 8 + 8 + 8))
            | .big => (b0 ++ b1 ++ b2 ++ b3 : BitVec (8 + 8 + 8 + 8))))

/-- The model's choice among D27's two (log 3): an LDW of a byte that nothing has given a value stops, and names the
first such byte. -/
def Obligations.LoadOfAByteWithNoValueStops : Prop :=
  ∀ (s : State) (rd ra : Reg) (k : Nat), RaAllowed s.cfg ra → AlignAllowed s.cfg (s.reg ra) →
    AllMapped s.cfg (s.reg ra) 4 → k < 4 → s.byte? (wordByteAddr (s.reg ra) k) = none →
    (∀ j < k, (s.byte? (wordByteAddr (s.reg ra) j)).isSome = true) →
    exec (.ldw rd ra) s = .fault (.unwrittenMemory (wordByteAddr (s.reg ra) k))

/-- R142, R143, R44: encoding, checks, effect and frame of STW, for each L_POLARITY, ENDIAN, DATA_ALIGN_POLICY and
MEM_RA_ZERO. The address is x[rd]. The order of the checks is the spec's decision D28 (log 25). -/
def Obligations.StoreWordWritesTheWordAtTheAddress : Prop :=
  (∀ (cfg : Config) (rd ra : Reg), rd ≠ 0#4 →
    let l : BitVec 1 := match cfg.lPolarity with
      | .oneLoads => 0#1
      | .zeroLoads => 1#1
    decode cfg (0#5 ++ ra ++ l ++ 1#2 ++ rd : BitVec (5 + 4 + 1 + 2 + 4)) = .ok (.stw rd ra)) ∧
  ∀ (s : State) (rd ra : Reg),
    (¬ RaAllowed s.cfg ra → exec (.stw rd ra) s = .fault (.constraintViolated (encodeWord s.cfg (.stw rd ra)))) ∧
    (RaAllowed s.cfg ra → ¬ AlignAllowed s.cfg (s.reg rd) →
      exec (.stw rd ra) s = .fault (.dataMisaligned (s.reg rd))) ∧
    (RaAllowed s.cfg ra → AlignAllowed s.cfg (s.reg rd) → ∀ k, FirstUnmapped s.cfg (s.reg rd) 4 k →
      exec (.stw rd ra) s = .fault (.unmapped (s.reg rd + BitVec.ofNat 32 k))) ∧
    (RaAllowed s.cfg ra → AlignAllowed s.cfg (s.reg rd) → AllMapped s.cfg (s.reg rd) 4 →
      ∃ t, exec (.stw rd ra) s = .next t ∧ OnlyStored s t (s.reg rd) (s.reg ra))

/-- R43: what a read of 2 or of 4 bytes answers, for each ENDIAN: the first unmapped byte faults, and the bytes of a
mapped access are assembled with the lowest address at bits 7:0 (little) or at the top (big). -/
def Obligations.ReadsAssembleTheirBytesByEndian : Prop :=
  ∀ (s : State) (a : Word),
    (∀ k, FirstUnmapped s.cfg a 2 k → memReadHalf s a = .error (.unmapped (a + BitVec.ofNat 32 k))) ∧
    (∀ k, FirstUnmapped s.cfg a 4 k → memReadWord s a = .error (.unmapped (a + BitVec.ofNat 32 k))) ∧
    (AllMapped s.cfg a 2 → ∀ b0 b1, s.byte? a = some b0 → s.byte? (a + 1#32) = some b1 →
      ∃ v, memReadHalf s a = .ok v ∧ match s.cfg.endian with
        | .little => v.extractLsb' 0 8 = b0 ∧ v.extractLsb' 8 8 = b1
        | .big => v.extractLsb' 8 8 = b0 ∧ v.extractLsb' 0 8 = b1) ∧
    (AllMapped s.cfg a 4 → ∀ b0 b1 b2 b3, HoldsBytes s a b0 b1 b2 b3 →
      ∃ v, memReadWord s a = .ok v ∧ match s.cfg.endian with
        | .little => v.extractLsb' 0 8 = b0 ∧ v.extractLsb' 8 8 = b1 ∧ v.extractLsb' 16 8 = b2 ∧ v.extractLsb' 24 8 = b3
        | .big => v.extractLsb' 24 8 = b0 ∧ v.extractLsb' 16 8 = b1 ∧ v.extractLsb' 8 8 = b2 ∧ v.extractLsb' 0 8 = b3)

/-- R48, R53: after a store of `v` at `a`, a load of `a` is `v`, and reads of 2 bytes at `a` and `a + 2` are its
halves in the order of ENDIAN. -/
def Obligations.AStoredWordReadsBackWholeAndInHalves : Prop :=
  ∀ (s t : State) (a v : Word), memWriteWord s a v = .ok t →
    memReadWord t a = .ok v ∧
    match s.cfg.endian with
    | .little => memReadHalf t a = .ok (v.extractLsb' 0 16) ∧ memReadHalf t (a + 2#32) = .ok (v.extractLsb' 16 16)
    | .big => memReadHalf t a = .ok (v.extractLsb' 16 16) ∧ memReadHalf t (a + 2#32) = .ok (v.extractLsb' 0 16)

/-! EXT and SYS (spec/45_ext_sys.md). -/

/-- R161: with no extension implemented every EXT word stops, recording imm8 (D18, D26, log 21). -/
def Obligations.ExtStopsWithItsOperand : Prop :=
  ∀ (s : State) (n : BitVec 4),
    exec (.ext1 n) s = .fault (.extUndefined (0#4 ++ n : BitVec (4 + 4))) ∧
    exec (.ext2 n) s = .fault (.extUndefined (n ++ 0#4 : BitVec (4 + 4)))

/-- R162, R163: the sixteen SYS words, and each is undefined behaviour: a stop (D19, log 22). -/
def Obligations.SysStopsWithItsOperand : Prop :=
  (∀ (cfg : Config) (n : BitVec 4), decode cfg (0#4 ++ n ++ 0xC0#8 : BitVec (4 + 4 + 8)) = .ok (.sys n)) ∧
  ∀ (s : State) (n : BitVec 4), exec (.sys n) s = .fault (.sysUndefined n)

/-- R161, R163: what a platform makes of EXT and SYS matters only to a step that executes one of them; with the
defaults it is the machine itself. -/
def Obligations.PlatformExtensionsMatterOnlyToTheirWords : Prop :=
  (∀ (ext : ExtSem) (sys : SysSem) (s : State) (w : Half) (i : Instr), fetch s = .ok w → decode s.cfg w = .ok i →
    isPlatformSpace i = false → stepWith ext sys s = step s) ∧
  ∀ s : State, stepWith noExtension noSystemFunction s = step s

/-! The machine (spec/10_state.md, spec/60_exceptions.md, spec/70_reset_and_hazards.md). -/

/-- R202: when the two bytes at the fetch address can be fetched and decode to `i`, the step is `i` executed in this
state. Nothing else happens in a step. -/
def Obligations.AStepRunsTheDecodedInstruction : Prop :=
  ∀ (s : State) (b0 b1 : Byte) (i : Instr),
    (s.cfg.fetchAlign = .ignoreBit0 ∨ s.pc.toNat % 2 = 0) → AllMapped s.cfg (fetchAddr s) 2 →
    (s.cfg.smc = .coherent ∨ ((fetchAddr s).toNat ∉ s.written ∧ (fetchAddr s + 1#32).toNat ∉ s.written)) →
    s.byte? (fetchAddr s) = some b0 → s.byte? (fetchAddr s + 1#32) = some b1 →
    decode s.cfg (joinHalf s.cfg.endian b0 b1) = .ok i → step s = exec i s

/-- R202, R203, R46, R56: the fetch faults of a step, in their order, for each policy (D3, D7, D28; log 11, log 12,
log 25). -/
def Obligations.FetchFaultsComeInTheirOrder : Prop :=
  ∀ s : State,
    (fetchAddr s).toNat = (match s.cfg.fetchAlign with
      | .fault => s.pc.toNat
      | .ignoreBit0 => 2 * (s.pc.toNat / 2)) ∧
    (s.cfg.fetchAlign = .fault → s.pc.toNat % 2 = 1 → step s = .fault (.fetchMisaligned s.pc)) ∧
    ((s.cfg.fetchAlign = .ignoreBit0 ∨ s.pc.toNat % 2 = 0) → ∀ k, FirstUnmapped s.cfg (fetchAddr s) 2 k →
      step s = .fault (.unmapped (fetchAddr s + BitVec.ofNat 32 k))) ∧
    ((s.cfg.fetchAlign = .ignoreBit0 ∨ s.pc.toNat % 2 = 0) → AllMapped s.cfg (fetchAddr s) 2 → s.cfg.smc = .fault →
      ((fetchAddr s).toNat ∈ s.written ∨ (fetchAddr s + 1#32).toNat ∈ s.written) →
      step s = .fault (.modifiedCode s.pc))

/-- The headline invariant: memory and the set of written bytes keep their canonical forms, and every byte an STW
wrote holds a value, through every step from every state. -/
def Obligations.EveryStepKeepsTheInvariant : Prop :=
  ∀ s t : State, MachineInv s → step s = .next t → MachineInv t

/-- The invariant holds after reset. -/
def Obligations.ResetHasTheInvariant : Prop :=
  MachineInv State.reset

/-- The invariant holds before the first step of a run, for every draw of the registers, every choice of the
parameters and every image (R33, R222). -/
def Obligations.EveryBootStateHasTheInvariant : Prop :=
  ∀ (draw : Vector Word 15) (cfg : Config) (image : List Byte), MachineInv (bootState draw cfg image)

/-- R21: r0 reads zero in every state, and is a legal source, as the manual uses it in ADD, SUB and BIN. -/
def Obligations.RegisterZeroReadsZero : Prop :=
  (∀ s : State, s.reg 0#4 = 0#32) ∧
  ∀ (cfg : Config) (rd ra : Reg), rd ≠ 0#4 →
    wellFormed cfg (.add rd 0#4 ra) = true ∧ wellFormed cfg (.sub rd 0#4 ra) = true ∧
      wellFormed cfg (.bin 0#4) = true

/-- The model's choice (log 27; R22 says that no decoded instruction is such a term): an instruction whose destination
field is r0 changes no register. -/
def Obligations.ATermThatWritesRegisterZeroChangesNone : Prop :=
  ∀ (i : Instr) (s t : State), destReg i = some 0#4 → exec i s = .next t → SameRegs s t

/-- R24, R22: no instruction writes a register that its destination field does not name. -/
def Obligations.OnlyTheDestinationRegisterChanges : Prop :=
  ∀ (i : Instr) (s t : State), exec i s = .next t → ∀ r, destReg i ≠ some r → t.reg r = s.reg r

/-- R24: no instruction reads or writes a register that no field of it names: a completed instruction does the same
whatever such a register holds, and leaves it. -/
def Obligations.ARegisterNotNamedDoesNotMatter : Prop :=
  ∀ (i : Instr) (s t : State) (r : Reg) (v : Word), r ∉ namedRegs i → exec i s = .next t →
    exec i (s.setReg r v) = .next (t.setReg r v)

/-- R41, R32: no instruction but STW changes a byte of memory, and none but STW enters one in `written`. -/
def Obligations.OnlyStoresChangeMemory : Prop :=
  ∀ (i : Instr) (s t : State), exec i s = .next t → (∀ rd ra, i ≠ .stw rd ra) →
    SameMemory s t ∧ t.written = s.written

/-- R41, R55: an instruction that is neither LDW nor STW works on registers only: it does the same whatever memory
holds, and leaves it. -/
def Obligations.MemoryMattersOnlyToLoadsAndStores : Prop :=
  ∀ (i : Instr) (s t : State) (m : Memory) (l : List Nat), reachesMemory i = false → exec i s = .next t →
    exec i { s with mem := m, written := l } = .next { t with mem := m, written := l }

/-- R42, R34: no step changes a parameter. -/
def Obligations.NoStepChangesAParameter : Prop :=
  ∀ s t : State, step s = .next t → t.cfg = s.cfg

/-- R27: only BIN can make an even pc odd. -/
def Obligations.OnlyBinCanMakeThePcOdd : Prop :=
  ∀ s t : State, s.pc.toNat % 2 = 0 → step s = .next t → t.pc.toNat % 2 = 1 →
    ∃ w ra, fetch s = .ok w ∧ decode s.cfg w = .ok (.bin ra)

/-- R56, R44: a byte once written by an STW of the run stays so, and the bytes a step adds are the four of the STW it
executed. -/
def Obligations.WrittenBytesAreThoseOfTheStores : Prop :=
  ∀ s t : State, step s = .next t → ∀ n, n ∈ t.written ↔
    n ∈ s.written ∨ ∃ w rd ra k, fetch s = .ok w ∧ decode s.cfg w = .ok (.stw rd ra) ∧ k < 4 ∧
      n = (wordByteAddr (s.reg rd) k).toNat

/-- R33, R220: pc is 0 after reset, for every draw of the registers; r0 is 0 and the others are the draw. That pc is 0
is the spec's decision D20 (log 31); that no byte holds a value is the model's (log 3). -/
def Obligations.ResetStartsAtAddressZero : Prop :=
  State.reset.pc = 0#32 ∧
  ∀ (draw : Vector Word 15) (cfg : Config),
    (State.resetWith draw cfg).pc = 0#32 ∧ (State.resetWith draw cfg).reg 0#4 = 0#32 ∧
    (∀ k : Fin 15, (State.resetWith draw cfg).reg (BitVec.ofNat 4 (k.val + 1)) = draw[k]) ∧
    (∀ a, (State.resetWith draw cfg).byte? a = none) ∧ (State.resetWith draw cfg).written = []

/-- R222 (a), R33: before the first step byte k of the image is at address k, nothing else holds a value, and pc
is 0. -/
def Obligations.TheImageIsPlacedAtAddressZero : Prop :=
  ∀ (draw : Vector Word 15) (cfg : Config) (image : List Byte), image.length ≤ 2 ^ 32 →
    (bootState draw cfg image).pc = 0#32 ∧
    ∀ a : Word, (bootState draw cfg image).byte? a = image[a.toNat]?

/-- The host's interface (log 32): after `withFetchWord` the next fetch reads the word, from every state. -/
def Obligations.WithFetchWordIsFetchedNext : Prop :=
  ∀ (s : State) (w : Nat), fetch (s.withFetchWord 16 w) = .ok (BitVec.ofNat 16 w)

/-- R228: from a halted state every further step is defined and leaves the whole state unchanged. What a halt is, is
the spec's decision D25 (log 26). -/
def Obligations.AHaltedMachineStaysAsItIs : Prop :=
  ∀ (s : State), isHalted s = true → ∀ n, Sys2Proof.core.run n s = .next s

/-- R204, R228: a run reported as faulted stopped at a state whose next step faults, the state before the faulting
step; a run reported as halted stopped at a halt; and `n` steps led there. -/
def Obligations.ARunStopsWhereItsOutcomeSays : Prop :=
  ∀ (n : Nat) (s u : State),
    (∀ f, runFor n s = .faulted f u → step u = .fault f ∧ ∃ k ≤ n, Sys2Proof.core.run k s = .next u) ∧
    (runFor n s = .halted u → isHalted u = true ∧ ∃ k ≤ n, Sys2Proof.core.run k s = .next u) ∧
    (runFor n s = .stillRunning u → isHalted u = false ∧ Sys2Proof.core.run n s = .next u)

/-! Assembly forms and pseudo-instructions (spec/46_pseudo.md, spec/10_state.md R23). -/

/-- R23: the names of the registers. -/
def Obligations.RegisterNamesAreThoseOfTheTable : Prop :=
  ([("zero", 0), ("t0", 1), ("t1", 2), ("t2", 3), ("t3", 4), ("t4", 5), ("t5", 6), ("t6", 7), ("s0", 8), ("s1", 9),
    ("s2", 10), ("s3", 11), ("o0", 10), ("o1", 11), ("a0", 12), ("a1", 13), ("sp", 14), ("lr", 15), ("r0", 0),
    ("r1", 1), ("r2", 2), ("r3", 3), ("r4", 4), ("r5", 5), ("r6", 6), ("r7", 7), ("r8", 8), ("r9", 9), ("r10", 10),
    ("r11", 11), ("r12", 12), ("r13", 13), ("r14", 14), ("r15", 15)] : List (String × Nat)).all
      (fun p => registerNamed p.1 == some (BitVec.ofNat 4 p.2)) = true

/-- R100, R101, R104, R107, R83: the offset field an assembler computes for a label is exactly the one from which the
instruction reaches it (base and wrap: D8, D4, log 7, log 6). -/
def Obligations.AnOffsetFieldReachesExactlyItsLabel : Prop :=
  ∀ (here label : Word),
    (∀ off, offsetField 12 here label = .ok off ↔ relTarget here off = label) ∧
    (∀ off, offsetField 7 here label = .ok off ↔ relTarget here off = label) ∧
    (∀ off, offsetField 10 here label = .ok off ↔ relTarget here off = label)

/-- R83, R172, R188: the words of an accepted line decode, in order, to the instructions the line stands for, followed
by its raw data. -/
def Obligations.AssembledLinesDecodeToTheirInstructions : Prop :=
  ∀ (cfg : Config) (here : Word) (l : Line) (ws : List Half), assembleLine cfg here l = .ok ws →
    ∃ is cs, lineInstrs here l = .ok is ∧ ws = cs ++ lineData cfg.endian l ∧ cs.map (decode cfg) = is.map .ok

/-- R172, with R179, R183, R184, R185 for the pseudo-instructions: which operands an assembler accepts, for each PAIR_MAP;
every other is rejected. C2: LDW and STW with ra = r0 are rejected, as the prose has it, though a word encodes them. That
`psh zero`, whose composition holds such an STW, is rejected with it is inferred from R143 (log 34); that a distance is
taken modulo 2^32 is the model's (log 29). Alignment of the literal of `imm32` is no operand check here: R183 and R45 ask
a multiple of 4 under DATA_ALIGN_POLICY `fault`, D30 lets the programmer or the assembler see to it, and leaving it to the
program is the model's choice (log 29); so every even literal in reach is accepted. -/
def Obligations.AnAssemblerAcceptsExactlyTheseOperands : Prop :=
  ∀ (cfg : Config) (here : Word),
    let accepts := fun (l : Line) => ∃ ws, assembleLine cfg here l = .ok ws
    let inReach := fun (start label : Word) (n : Int) =>
      (label - start).toInt % 2 = 0 ∧ -n ≤ (label - start).toInt / 2 ∧ (label - start).toInt / 2 < n
    let pair := fun (ra rb : Reg) => ∃ p, pairRegs cfg.pairMap p = (ra, rb)
    (∀ t, accepts (.bal t) ↔ inReach here t 2048) ∧
    (∀ ra, accepts (.bin ra)) ∧
    (∀ ra rb t, (accepts (.beq ra rb t) ↔ pair ra rb ∧ inReach here t 64) ∧
      (accepts (.bne ra rb t) ↔ pair ra rb ∧ inReach here t 64) ∧
      (accepts (.blt ra rb t) ↔ pair ra rb ∧ inReach here t 64)) ∧
    (∀ rd t, accepts (.adr rd t) ↔ rd ≠ 0#4 ∧ inReach here t 512) ∧
    (∀ rd ra rb, (accepts (.and rd ra rb) ↔ rd ≠ 0#4) ∧ (accepts (.orr rd ra rb) ↔ rd ≠ 0#4) ∧
      (accepts (.xor rd ra rb) ↔ rd ≠ 0#4) ∧ (accepts (.shl rd ra rb) ↔ rd ≠ 0#4) ∧
      (accepts (.shr rd ra rb) ↔ rd ≠ 0#4) ∧ (accepts (.add rd ra rb) ↔ rd ≠ 0#4) ∧
      (accepts (.sub rd ra rb) ↔ rd ≠ 0#4)) ∧
    (∀ rz n, (accepts (.inc rz n) ↔ rz ≠ 0#4 ∧ 1 ≤ n ∧ n ≤ 31) ∧
      (accepts (.dec rz n) ↔ rz ≠ 0#4 ∧ 1 ≤ n ∧ n ≤ 31)) ∧
    (∀ rd ra n, (accepts (.sli rd ra n) ↔ rd ≠ 0#4 ∧ ra ≠ 0#4 ∧ 1 ≤ n ∧ n ≤ 31) ∧
      (accepts (.sri rd ra n) ↔ rd ≠ 0#4 ∧ ra ≠ 0#4 ∧ 1 ≤ n ∧ n ≤ 31)) ∧
    (∀ rz rz' ra, accepts (.mul rz rz' ra) ↔ rz = rz' ∧ rz ≠ 0#4 ∧ ra ≠ 0#4) ∧
    (∀ rd ra, (accepts (.ldw rd ra) ↔ rd ≠ 0#4 ∧ ra ≠ 0#4) ∧ (accepts (.stw rd ra) ↔ rd ≠ 0#4 ∧ ra ≠ 0#4)) ∧
    (∀ rd v, accepts (.imm rd v) ↔ rd ≠ 0#4 ∧ -16 ≤ v ∧ v ≤ 15) ∧
    (∀ n, accepts (.ext n) ↔ n ≤ 255 ∧ (n / 16 = 0 ∨ n % 16 = 0)) ∧
    (∀ n, accepts (.sys n) ↔ n ≤ 15) ∧
    accepts .hlt ∧ accepts .nop ∧ accepts .ret ∧ accepts .rst ∧
    (∀ t, accepts (.blk t) ↔ inReach (here + 2#32) t 2048) ∧
    (∀ rd ra, (accepts (.mov rd ra) ↔ rd ≠ 0#4) ∧ (accepts (.neg rd ra) ↔ rd ≠ 0#4)) ∧
    (∀ rd v t, accepts (.imm32 rd v t) ↔ rd ≠ 0#4 ∧ inReach here t 512) ∧
    (∀ rs, (accepts (.psh rs) ↔ rs ≠ [] ∧ 0#4 ∉ rs) ∧ (accepts (.pop rs) ↔ rs ≠ [] ∧ 0#4 ∉ rs)) ∧
    (∀ v, accepts (.word v)) ∧ (∀ v, accepts (.hword v))

/-- R174, R175: the words of `hlt` and `nop` and what they do, in every state. The base of the offset is D8 (log 7),
the composition of `nop` D22 (log 29). -/
def Obligations.HltAndNopChangeNothingButThePc : Prop :=
  (∀ (cfg : Config) (here : Word), assembleLine cfg here .hlt = .ok [0x0000#16] ∧
    assembleLine cfg here .nop = .ok [0x0001#16]) ∧
  ∀ (cfg : Config) (s : State),
    (∃ i, decode cfg 0x0000#16 = .ok i ∧ exec i s = .next s) ∧
    (∃ i t, decode cfg 0x0001#16 = .ok i ∧ exec i s = .next t ∧ OnlyPc s t (s.pc + 2#32))

/-- R176, R177, R179: `ret`, `rst` and `mov`: their words and their effects, in every state. -/
def Obligations.RetRstAndMovDoAsTheirCompositions : Prop :=
  (∀ (cfg : Config) (here : Word), assembleLine cfg here .ret = .ok [0x0F40#16] ∧
    assembleLine cfg here .rst = .ok [0x0040#16] ∧
    ∀ rd ra : Reg, rd ≠ 0#4 →
      assembleLine cfg here (.mov rd ra) = .ok [(ra.setWidth 16 <<< 8) ||| 0x00C0#16 ||| rd.setWidth 16]) ∧
  ∀ (here : Word) (s : State),
    (∃ is t, lineInstrs here .ret = .ok is ∧ execSeq is s = .next t ∧ OnlyPc s t (s.reg 15#4)) ∧
    (∃ is t, lineInstrs here .rst = .ok is ∧ execSeq is s = .next t ∧ OnlyPc s t 0#32) ∧
    ∀ rd ra : Reg, rd ≠ 0#4 → ∃ is t, lineInstrs here (.mov rd ra) = .ok is ∧ execSeq is s = .next t ∧
      OnlyRegister s t rd (s.reg ra)

/-- R180: `neg`: its word and its effect (the wrap of 0 - x is D17, log 20). -/
def Obligations.NegNegates : Prop :=
  (∀ (cfg : Config) (here : Word) (rd ra : Reg), rd ≠ 0#4 →
    assembleLine cfg here (.neg rd ra) = .ok [(ra.setWidth 16 <<< 8) ||| 0x00E0#16 ||| rd.setWidth 16]) ∧
  ∀ (here : Word) (s : State) (rd ra : Reg),
    ∃ is t v, lineInstrs here (.neg rd ra) = .ok is ∧ execSeq is s = .next t ∧ OnlyRegister s t rd v ∧
      v = BitVec.ofInt 32 (-(s.reg ra).toInt)

/-- R178: `blk` leaves the address of the instruction after its two words in lr and goes to its label (D8, log 7). -/
def Obligations.BlkLinksAndBranches : Prop :=
  ∀ (s : State) (label : Word) (is : List Instr), lineInstrs s.pc (.blk label) = .ok is →
    ∃ t, execSeq is s = .next t ∧ t.pc = label ∧ t.reg 15#4 = s.pc + 4#32 ∧ (∀ r, r ≠ 15#4 → t.reg r = s.reg r) ∧
      SameMemory s t ∧ SameBookkeeping s t

/-- R183: the two-word `imm` loads its literal: when the word at `literal` can be read and reads `v`, rd becomes `v`. -/
def Obligations.TheTwoWordImmLoadsItsLiteral : Prop :=
  ∀ (s : State) (rd : Reg) (value literal v : Word) (is : List Instr), rd ≠ 0#4 →
    lineInstrs s.pc (.imm32 rd value literal) = .ok is → AlignAllowed s.cfg literal → memReadWord s literal = .ok v →
    ∃ t, execSeq is s = .next t ∧ t.reg rd = v ∧ (∀ r, r ≠ rd → t.reg r = s.reg r) ∧ t.pc = s.pc + 4#32 ∧
      SameMemory s t ∧ SameBookkeeping s t

/-- R150, R183: which form the mnemonic `imm` takes for an operand, and that both forms load the operand, the two-word
form with its literal where `literalOf` puts it. Where the literal stands and how it is aligned is the program's (D30,
log 29); that an operand of -2^31 to 2^32 - 1 is a 32-bit one is the model's (log 35); the base of the offset is D8
(log 7). -/
def Obligations.TheImmMnemonicChoosesItsFormAndLoadsItsOperand : Prop :=
  (∀ (rd : Reg) (v : Int) (literal : Word),
    (-16 ≤ v → v ≤ 15 → immLine rd v literal = .ok (.imm rd v)) ∧
    (v < -16 ∨ 15 < v → -2 ^ 31 ≤ v → v < 2 ^ 32 →
      ∃ value, immLine rd v literal = .ok (.imm32 rd value literal) ∧ (value.toNat : Int) = v % 2 ^ 32 ∧
        literalOf (.imm32 rd value literal) = some (literal, .word value)) ∧
    (v < -2 ^ 31 ∨ 2 ^ 32 ≤ v → immLine rd v literal = .error .immediate)) ∧
  ∀ (s : State) (rd : Reg) (v : Int) (literal : Word) (l : Line) (is : List Instr), rd ≠ 0#4 →
    immLine rd v literal = .ok l → lineInstrs s.pc l = .ok is →
    (literalOf l = none ∨ (AlignAllowed s.cfg literal ∧ AllMapped s.cfg literal 4)) →
    ∃ t, execSeq is (s.placeLiteral l) = .next t ∧ t.reg rd = BitVec.ofInt 32 v ∧ (∀ r, r ≠ rd → t.reg r = s.reg r) ∧
      t.pc = s.pc + BitVec.ofNat 32 (2 * is.length) ∧ SameMemory (s.placeLiteral l) t ∧ SameBookkeeping s t

/-- R184, R185, R58: `psh` of a register stores it at sp - 4, which becomes sp (`psh sp` stores the decremented sp);
`pop` of it afterwards loads it back and restores sp. -/
def Obligations.PushThenPopRestores : Prop :=
  ∀ (here : Word) (s : State) (ra rd : Reg),
    let slot := s.reg 14#4 - 4#32
    RaAllowed s.cfg ra → AlignAllowed s.cfg slot → AllMapped s.cfg slot 4 →
    (∃ is t, lineInstrs here (.psh [ra]) = .ok is ∧ execSeq is s = .next t ∧ t.reg 14#4 = slot ∧
      (∀ r, r ≠ 14#4 → t.reg r = s.reg r) ∧ t.pc = s.pc + 4#32 ∧
      memReadWord t slot = .ok (if ra = 14#4 then slot else s.reg ra) ∧
      (∀ b : Word, (∀ k < 4, b ≠ wordByteAddr slot k) → t.byte? b = s.byte? b)) ∧
    (rd ≠ 0#4 → rd ≠ 14#4 →
      ∃ is t, lineInstrs here (.pop [rd]) = .ok is ∧ execSeq (pshInstrs [ra] ++ is) s = .next t ∧
        t.reg 14#4 = s.reg 14#4 ∧ t.reg rd = (if ra = 14#4 then slot else s.reg ra) ∧
        (∀ r, r ≠ rd → r ≠ 14#4 → t.reg r = s.reg r))

/-- R186, R187, R48: the bytes of a `word` line placed at `a` read back as its value, and those of an `hword` line as
its value, for each ENDIAN. -/
def Obligations.RawDataReadsBack : Prop :=
  ∀ (s : State) (a here v : Word) (h : Half),
    (AllMapped s.cfg a 4 → ∃ ws, assembleLine s.cfg here (.word v) = .ok ws ∧
      memReadWord (s.placeBytes a (imageBytes s.cfg.endian ws)) a = .ok v) ∧
    (AllMapped s.cfg a 2 → ∃ ws, assembleLine s.cfg here (.hword h) = .ok ws ∧
      memReadHalf (s.placeBytes a (imageBytes s.cfg.endian ws)) a = .ok h)
end

