-- ==== Sys2Proof/Laws/State.lean ====
section
/-! SUPPORT. One lemma for each field under each update of the state, and the laws of the registers. -/

namespace Sys2Proof.Machine

@[simp] theorem setPc_pc (s : State) (t : Word) : (s.setPc t).pc = t := rfl
@[simp] theorem setPc_regs (s : State) (t : Word) : (s.setPc t).regs = s.regs := rfl
@[simp] theorem setPc_mem (s : State) (t : Word) : (s.setPc t).mem = s.mem := rfl
@[simp] theorem setPc_written (s : State) (t : Word) : (s.setPc t).written = s.written := rfl
@[simp] theorem setPc_cfg (s : State) (t : Word) : (s.setPc t).cfg = s.cfg := rfl
@[simp] theorem setPc_reg (s : State) (t : Word) (r : Reg) : (s.setPc t).reg r = s.reg r := rfl
@[simp] theorem setPc_byte? (s : State) (t a : Word) : (s.setPc t).byte? a = s.byte? a := rfl

@[simp] theorem advance_pc (s : State) : s.advance.pc = s.pc + 2#32 := rfl
@[simp] theorem advance_regs (s : State) : s.advance.regs = s.regs := rfl
@[simp] theorem advance_mem (s : State) : s.advance.mem = s.mem := rfl
@[simp] theorem advance_written (s : State) : s.advance.written = s.written := rfl
@[simp] theorem advance_cfg (s : State) : s.advance.cfg = s.cfg := rfl
@[simp] theorem advance_reg (s : State) (r : Reg) : s.advance.reg r = s.reg r := rfl
@[simp] theorem advance_byte? (s : State) (a : Word) : s.advance.byte? a = s.byte? a := rfl

@[simp] theorem setReg_pc (s : State) (i : Reg) (v : Word) : (s.setReg i v).pc = s.pc := by
  unfold State.setReg; split <;> rfl
@[simp] theorem setReg_mem (s : State) (i : Reg) (v : Word) : (s.setReg i v).mem = s.mem := by
  unfold State.setReg; split <;> rfl
@[simp] theorem setReg_written (s : State) (i : Reg) (v : Word) : (s.setReg i v).written = s.written := by
  unfold State.setReg; split <;> rfl
@[simp] theorem setReg_cfg (s : State) (i : Reg) (v : Word) : (s.setReg i v).cfg = s.cfg := by
  unfold State.setReg; split <;> rfl
@[simp] theorem setReg_byte? (s : State) (i : Reg) (v a : Word) : (s.setReg i v).byte? a = s.byte? a := by
  simp [State.byte?]

@[simp] theorem writeAndAdvance_pc (s : State) (i : Reg) (v : Word) : (s.writeAndAdvance i v).pc = s.pc + 2#32 := by
  simp [State.writeAndAdvance]
@[simp] theorem writeAndAdvance_mem (s : State) (i : Reg) (v : Word) : (s.writeAndAdvance i v).mem = s.mem := by
  simp [State.writeAndAdvance]
@[simp] theorem writeAndAdvance_written (s : State) (i : Reg) (v : Word) :
    (s.writeAndAdvance i v).written = s.written := by simp [State.writeAndAdvance]
@[simp] theorem writeAndAdvance_cfg (s : State) (i : Reg) (v : Word) : (s.writeAndAdvance i v).cfg = s.cfg := by
  simp [State.writeAndAdvance]
@[simp] theorem writeAndAdvance_byte? (s : State) (i : Reg) (v a : Word) :
    (s.writeAndAdvance i v).byte? a = s.byte? a := by simp [State.writeAndAdvance]
theorem writeAndAdvance_reg (s : State) (i r : Reg) (v : Word) :
    (s.writeAndAdvance i v).reg r = (s.setReg i v).reg r := rfl

@[simp] theorem storeByte_pc (s : State) (a : Word) (b : Byte) : (s.storeByte a b).pc = s.pc := rfl
@[simp] theorem storeByte_regs (s : State) (a : Word) (b : Byte) : (s.storeByte a b).regs = s.regs := rfl
@[simp] theorem storeByte_mem (s : State) (a : Word) (b : Byte) :
    (s.storeByte a b).mem = memInsert s.mem a.toNat b := rfl
@[simp] theorem storeByte_written (s : State) (a : Word) (b : Byte) :
    (s.storeByte a b).written = addrInsert s.written a.toNat := rfl
@[simp] theorem storeByte_cfg (s : State) (a : Word) (b : Byte) : (s.storeByte a b).cfg = s.cfg := rfl
@[simp] theorem storeByte_reg (s : State) (a : Word) (b : Byte) (r : Reg) : (s.storeByte a b).reg r = s.reg r := rfl

@[simp] theorem storeWord_pc (s : State) (a v : Word) : (s.storeWord a v).pc = s.pc := rfl
@[simp] theorem storeWord_regs (s : State) (a v : Word) : (s.storeWord a v).regs = s.regs := rfl
@[simp] theorem storeWord_cfg (s : State) (a v : Word) : (s.storeWord a v).cfg = s.cfg := rfl
@[simp] theorem storeWord_reg (s : State) (a v : Word) (r : Reg) : (s.storeWord a v).reg r = s.reg r := rfl

@[simp] theorem placeByte_pc (s : State) (a : Word) (b : Byte) : (s.placeByte a b).pc = s.pc := rfl
@[simp] theorem placeByte_regs (s : State) (a : Word) (b : Byte) : (s.placeByte a b).regs = s.regs := rfl
@[simp] theorem placeByte_mem (s : State) (a : Word) (b : Byte) :
    (s.placeByte a b).mem = memInsert s.mem a.toNat b := rfl
@[simp] theorem placeByte_written (s : State) (a : Word) (b : Byte) : (s.placeByte a b).written = s.written := rfl
@[simp] theorem placeByte_cfg (s : State) (a : Word) (b : Byte) : (s.placeByte a b).cfg = s.cfg := rfl

/-- r0 is hardwired to zero (R21). -/
@[simp] theorem reg_zero (s : State) : s.reg 0#4 = 0#32 := rfl

/-- A register written reads back, unless it is r0. -/
theorem setReg_reg_self (s : State) (i : Reg) (v : Word) :
    (s.setReg i v).reg i = if i = 0#4 then 0#32 else v := by
  by_cases h : i.toNat = 0
  · have hi : i = 0#4 := BitVec.eq_of_toNat_eq (by simpa using h)
    subst hi; simp
  · have hi : i ≠ 0#4 := fun e => h (by simp [e])
    simp [State.setReg, State.reg, h, hi]

/-- Writing one register leaves every other. -/
theorem setReg_reg_other (s : State) (i r : Reg) (v : Word) (h : r ≠ i) : (s.setReg i v).reg r = s.reg r := by
  unfold State.setReg
  split
  · rfl
  · rename_i hi
    unfold State.reg
    split
    · rfl
    · rename_i hr
      have hne : ¬ i.toNat - 1 = r.toNat - 1 := fun e => h (BitVec.eq_of_toNat_eq (by omega))
      simp [hne]

/-- Everything `writeAndAdvance` does. -/
theorem writeAndAdvance_onlyRegister (s : State) (rd : Reg) (v : Word) :
    OnlyRegister s (s.writeAndAdvance rd v) rd v :=
  ⟨by rw [writeAndAdvance_reg, setReg_reg_self],
   fun r h => by rw [writeAndAdvance_reg, setReg_reg_other _ _ _ _ h],
   by simp, fun a => by simp, by simp, by simp⟩

/-- Everything `setPc` does. -/
theorem setPc_onlyPc (s : State) (t : Word) : OnlyPc s (s.setPc t) t :=
  ⟨rfl, fun _ => rfl, fun _ => rfl, rfl, rfl⟩

/-- Everything a conditional branch does: it sets pc to one of two addresses. -/
theorem branchOn_eq (c : Cond) (ra rb : Reg) (off : BitVec 7) (s : State) :
    branchOn c ra rb off s =
      s.setPc (if condHolds c (s.reg ra) (s.reg rb) then relTarget s.pc off else s.pc + 2#32) := by
  unfold branchOn; split <;> rfl

/-- What `finish` answers: next for ok, fault for an error, and nothing else. -/
theorem finish_eq_next {r : Except Fault State} {t : State} : finish r = .next t ↔ r = .ok t := by
  cases r <;> simp [finish]

theorem finish_eq_fault {r : Except Fault State} {f : Fault} : finish r = .fault f ↔ r = .error f := by
  cases r <;> simp [finish]

/-- A sequence of checks succeeds when its first part does and the rest does on its result. -/
theorem bind_eq_ok {α β : Type} {x : Except Fault α} {f : α → Except Fault β} {b : β} :
    (x >>= f) = .ok b ↔ ∃ a, x = .ok a ∧ f a = .ok b := by
  cases x <;> simp [bind, Except.bind]

/-- A sequence of checks whose first part succeeds is the rest. -/
theorem bind_of_ok {α β : Type} {x : Except Fault α} {f : α → Except Fault β} {a : α} (h : x = .ok a) :
    (x >>= f) = f a := by
  rw [h]; rfl

/-- A sequence of checks whose first part fails, fails so. -/
theorem bind_of_error {α β : Type} {x : Except Fault α} {f : α → Except Fault β} {e : Fault} (h : x = .error e) :
    (x >>= f) = .error e := by
  rw [h]; rfl

end Sys2Proof.Machine
end

