-- ==== Sys2Proof/Laws/Memory.lean ====
section
/-! SUPPORT. The laws of memory: read after write, the canonical form, the accesses of R43 and R44. -/

namespace Sys2Proof.Machine

/-- A byte that was given a value holds it. -/
@[simp] theorem memLookup_memInsert_self (m : Memory) (a : Nat) (b : Byte) :
    memLookup (memInsert m a b) a = some b := by
  induction m with
  | nil => simp [memInsert, memLookup]
  | cons c rest ih =>
    obtain ⟨k, v⟩ := c
    simp only [memInsert]
    split
    · simp [memLookup]
    · split
      · simp [memLookup]
      · rename_i h
        simp [memLookup, Ne.symm h, ih]

/-- Every other byte is left. -/
theorem memLookup_memInsert_other (m : Memory) {a n : Nat} (b : Byte) (h : n ≠ a) :
    memLookup (memInsert m a b) n = memLookup m n := by
  induction m with
  | nil => simp [memInsert, memLookup, Ne.symm h]
  | cons c rest ih =>
    obtain ⟨k, v⟩ := c
    simp only [memInsert]
    split
    · simp [memLookup, Ne.symm h]
    · split
      · rename_i _ e
        subst e
        simp [memLookup, Ne.symm h]
      · simp [memLookup, ih]

/-- Both at once. -/
theorem memLookup_memInsert (m : Memory) (a n : Nat) (b : Byte) :
    memLookup (memInsert m a b) n = if n = a then some b else memLookup m n := by
  split
  · rename_i h; subst h; simp
  · rename_i h; exact memLookup_memInsert_other m b h

theorem rising_weaken {o : Option Nat} {l : List Nat} (h : rising o l = true) : rising none l = true := by
  cases l with
  | nil => rfl
  | cons a rest => simp only [rising, Bool.and_eq_true] at h ⊢; exact ⟨⟨trivial, h.1.2⟩, h.2⟩

/-- The addresses of a memory with one more byte are those of the memory with one more. -/
theorem memInsert_keys (m : Memory) (a : Nat) (b : Byte) :
    (memInsert m a b).map (·.1) = addrInsert (m.map (·.1)) a := by
  induction m with
  | nil => rfl
  | cons c rest ih =>
    obtain ⟨k, v⟩ := c
    simp only [memInsert, List.map_cons, addrInsert]
    split
    · rfl
    · split
      · rename_i e; simp [e]
      · simp [ih]

/-- One more address keeps the addresses rising. -/
theorem addrInsert_rising (l : List Nat) (a : Nat) (ha : a < 4294967296) (o : Option Nat)
    (ho : ∀ k, o = some k → k < a) (h : rising o l = true) : rising o (addrInsert l a) = true := by
  induction l generalizing o with
  | nil => cases o with
    | none => simp [addrInsert, rising, ha]
    | some k => simp [addrInsert, rising, ha, ho k rfl]
  | cons k rest ih =>
    simp only [rising, Bool.and_eq_true, decide_eq_true_eq] at h
    simp only [addrInsert]
    split
    · rename_i hlt
      cases o with
      | none => simp [rising, ha, hlt, h.1.2, h.2]
      | some j => simp [rising, ha, hlt, h.1.2, h.2, ho j rfl]
    · split
      · simp [rising, h.1.1, h.1.2, h.2]
      · rename_i h1 h2
        have hk : k < a := by omega
        simp only [rising, h.1.1, h.1.2, decide_true, Bool.true_and]
        exact ih (some k) (fun j hj => by cases hj; exact hk) h.2

/-- Giving a byte a value keeps the canonical form of memory. -/
theorem memInsert_wf (m : Memory) (a : Word) (b : Byte) (h : Memory.wf m = true) :
    Memory.wf (memInsert m a.toNat b) = true := by
  unfold Memory.wf at *
  rw [memInsert_keys]
  exact addrInsert_rising _ _ a.isLt none (by simp) h

/-- The elements of a list of addresses with one more. -/
theorem mem_addrInsert (l : List Nat) (a n : Nat) : n ∈ addrInsert l a ↔ n = a ∨ n ∈ l := by
  induction l with
  | nil => simp [addrInsert]
  | cons k rest ih =>
    simp only [addrInsert]
    split
    · simp
    · split
      · rename_i e; subst e; simp
      · simp only [List.mem_cons, ih]; tauto

/-- A byte after one byte was stored. -/
theorem storeByte_byte? (s : State) (a n : Word) (b : Byte) :
    (s.storeByte a b).byte? n = if n = a then some b else s.byte? n := by
  simp only [State.byte?, storeByte_mem, memLookup_memInsert]
  by_cases h : n = a
  · simp [h]
  · have : ¬ n.toNat = a.toNat := fun e => h (BitVec.eq_of_toNat_eq e)
    simp [h, this]

/-- A byte after the host placed one. -/
theorem placeByte_byte? (s : State) (a n : Word) (b : Byte) :
    (s.placeByte a b).byte? n = if n = a then some b else s.byte? n :=
  storeByte_byte? s a n b

/-- The mapping check succeeds when MEM_REGIONS contains every byte of the access. -/
theorem checkMapped_eq_ok {cfg : Config} {a : Word} {n : Nat} : checkMapped cfg a n = .ok () ↔ AllMapped cfg a n := by
  unfold checkMapped AllMapped
  split
  · rename_i b hb
    obtain ⟨h1, h2⟩ := List.find?_eq_some_iff_append.mp hb
    obtain ⟨pre, post, e, -⟩ := h2
    have hmem : b ∈ accessAddrs a n := by rw [e]; simp
    simp only [accessAddrs, List.mem_map, List.mem_range] at hmem
    obtain ⟨k, hk, rfl⟩ := hmem
    simp only [reduceCtorEq, false_iff]
    intro hall
    rw [hall k hk] at h1
    simp at h1
  · rename_i hn
    simp only [List.find?_eq_none, accessAddrs, List.mem_map, List.mem_range] at hn
    simp only [true_iff]
    intro k hk
    simpa using hn _ ⟨k, hk, rfl⟩

/-- The mapping check fails with the first byte that MEM_REGIONS does not contain. -/
theorem checkMapped_of_firstUnmapped {cfg : Config} {a : Word} {n k : Nat} (h : FirstUnmapped cfg a n k) :
    checkMapped cfg a n = .error (.unmapped (a + BitVec.ofNat 32 k)) := by
  obtain ⟨hk, hu, hj⟩ := h
  have hf : (accessAddrs a n).find? (fun b => !isMapped cfg b) = some (a + BitVec.ofNat 32 k) := by
    rw [List.find?_eq_some_iff_getElem]
    refine ⟨by simp [hu], k, by simp [accessAddrs, hk], by simp [accessAddrs], ?_⟩
    intro j hlt
    simp [accessAddrs, hj j hlt]
  simp [checkMapped, hf]

/-- A byte is read when it holds a value. -/
theorem readByte_eq_ok {s : State} {a : Word} {b : Byte} : readByte s a = .ok b ↔ s.byte? a = some b := by
  unfold readByte; split <;> simp_all

/-- `MemRead(addr, 2)`: everything it can answer when it succeeds (R43). -/
theorem memReadHalf_eq_ok {s : State} {a : Word} {v : Half} :
    memReadHalf s a = .ok v ↔ AllMapped s.cfg a 2 ∧
      ∃ b0 b1, s.byte? a = some b0 ∧ s.byte? (a + 1#32) = some b1 ∧ v = joinHalf s.cfg.endian b0 b1 := by
  simp only [memReadHalf, bind_eq_ok, readByte_eq_ok, pure, Except.pure, Except.ok.injEq]
  constructor
  · rintro ⟨_, hm, b0, h0, b1, h1, rfl⟩
    exact ⟨checkMapped_eq_ok.mp hm, b0, b1, h0, h1, rfl⟩
  · rintro ⟨hm, b0, b1, h0, h1, rfl⟩
    exact ⟨(), checkMapped_eq_ok.mpr hm, b0, h0, b1, h1, rfl⟩

/-- `MemRead(addr, 4)`: everything it can answer when it succeeds (R43). -/
theorem memReadWord_eq_ok {s : State} {a v : Word} :
    memReadWord s a = .ok v ↔ AllMapped s.cfg a 4 ∧
      ∃ b0 b1 b2 b3, HoldsBytes s a b0 b1 b2 b3 ∧ v = joinWord s.cfg.endian b0 b1 b2 b3 := by
  simp only [memReadWord, bind_eq_ok, readByte_eq_ok, pure, Except.pure, Except.ok.injEq,
    HoldsBytes]
  constructor
  · rintro ⟨_, hm, b0, h0, b1, h1, b2, h2, b3, h3, rfl⟩
    exact ⟨checkMapped_eq_ok.mp hm, b0, b1, b2, b3, ⟨h0, h1, h2, h3⟩, rfl⟩
  · rintro ⟨hm, b0, b1, b2, b3, ⟨h0, h1, h2, h3⟩, rfl⟩
    exact ⟨(), checkMapped_eq_ok.mpr hm, b0, h0, b1, h1, b2, h2, b3, h3, rfl⟩

/-- `MemWrite(addr, 4, v)`: everything it can answer when it succeeds (R44). -/
theorem memWriteWord_eq_ok {s t : State} {a v : Word} :
    memWriteWord s a v = .ok t ↔ AllMapped s.cfg a 4 ∧ t = s.storeWord a v := by
  simp only [memWriteWord, bind_eq_ok, pure, Except.pure, Except.ok.injEq]
  exact ⟨fun ⟨_, hm, e⟩ => ⟨checkMapped_eq_ok.mp hm, e.symm⟩, fun ⟨hm, e⟩ => ⟨(), checkMapped_eq_ok.mpr hm, e.symm⟩⟩

/-- The alignment check of a data access succeeds when DATA_ALIGN_POLICY lets it run (R45). -/
theorem checkDataAlign_eq_ok {cfg : Config} {a : Word} : checkDataAlign cfg a = .ok () ↔ AlignAllowed cfg a := by
  have key : a.extractLsb' 0 2 = 0#2 ↔ a.toNat % 4 = 0 := by
    rw [← BitVec.toNat_inj]; simp [BitVec.extractLsb'_toNat]
  unfold checkDataAlign AlignAllowed
  cases cfg.dataAlign with
  | split => simp
  | fault =>
    simp only [reduceCtorEq, false_or, ← key]
    split <;> simp_all

/-- The check of the `ra` field succeeds when MEM_RA_ZERO lets the access run (R143). -/
theorem checkRaField_eq_ok {cfg : Config} {ra : Reg} {w : Half} : checkRaField cfg ra w = .ok () ↔ RaAllowed cfg ra := by
  unfold checkRaField RaAllowed
  cases cfg.memRaZero with
  | execute => simp
  | refuse => simp only [reduceCtorEq, false_or]; split <;> simp_all

/-- Reset's memory has the canonical form. -/
theorem reset_mem_wf (draw : Vector Word 15) (cfg : Config) : Memory.wf (State.resetWith draw cfg).mem = true := rfl

/-- Storing a byte keeps the canonical form of memory. -/
theorem storeByte_mem_wf (s : State) (a : Word) (b : Byte) (h : Memory.wf s.mem = true) :
    Memory.wf (s.storeByte a b).mem = true :=
  memInsert_wf s.mem a b h

/-- Storing a word keeps the canonical form of memory. -/
theorem storeWord_mem_wf (s : State) (a v : Word) (h : Memory.wf s.mem = true) :
    Memory.wf (s.storeWord a v).mem = true :=
  storeByte_mem_wf _ _ _ (storeByte_mem_wf _ _ _ (storeByte_mem_wf _ _ _ (storeByte_mem_wf _ _ _ h)))

/-- Placing bytes keeps the canonical form of memory. -/
theorem placeBytes_mem_wf (bs : List Byte) (s : State) (a : Word) (h : Memory.wf s.mem = true) :
    Memory.wf (s.placeBytes a bs).mem = true := by
  induction bs generalizing s a with
  | nil => exact h
  | cons b rest ih => exact ih _ _ (memInsert_wf s.mem a b h)

/-- Making the next fetch read a word keeps the canonical form of memory. -/
theorem withFetchWord_mem_wf (s : State) (nbits w : Nat) (h : Memory.wf s.mem = true) :
    Memory.wf (s.withFetchWord nbits w).mem = true :=
  placeBytes_mem_wf _ _ _ h

end Sys2Proof.Machine
end

