-- ==== Sys2Proof/Laws/Assembler.lean ====
section
/-! SUPPORT. What the assembler can answer when it accepts (spec/46_pseudo.md R172, R188). -/

namespace Sys2Proof.Machine

/-- `encode` answers the word of a well-formed instruction, and nothing else. -/
theorem encode_eq_ok {cfg : Config} {i : Instr} {w : Half} :
    encode cfg i = .ok w ↔ wellFormed cfg i = true ∧ w = encodeWord cfg i := by
  unfold encode wellFormed
  cases illFormed cfg i with
  | some e => simp
  | none => simp [eq_comm]

/-- Instructions are encoded together exactly when each is well-formed, each to its word. -/
theorem encodeAll_eq_ok {cfg : Config} {is : List Instr} {ws : List Half} :
    encodeAll cfg is = .ok ws ↔ is.all (wellFormed cfg) = true ∧ ws = is.map (encodeWord cfg) := by
  induction is generalizing ws with
  | nil => simp [encodeAll, eq_comm]
  | cons i rest ih =>
    simp only [encodeAll, List.all_cons, List.map_cons, Bool.and_eq_true]
    cases he : encode cfg i with
    | error e =>
      have : ¬ wellFormed cfg i = true := fun h => by simp [encode_eq_ok.mpr ⟨h, rfl⟩] at he
      simp [this]
    | ok w =>
      obtain ⟨hw, rfl⟩ := encode_eq_ok.mp he
      cases ha : encodeAll cfg rest with
      | error e =>
        have : ¬ rest.all (wellFormed cfg) = true := fun h => by simp [ih.mpr ⟨h, rfl⟩] at ha
        simp only [reduceCtorEq, false_iff]
        tauto
      | ok vs =>
        obtain ⟨hr, rfl⟩ := ih.mp ha
        simp only [Except.ok.injEq, hw, hr, true_and, eq_comm]

/-- Everything a line's assembly can answer when it is accepted: its instructions exist, none is one the prose forbids,
each is well-formed, and the words are theirs and then the raw data. -/
theorem assembleLine_eq_ok {cfg : Config} {here : Word} {l : Line} {ws : List Half} :
    assembleLine cfg here l = .ok ws ↔ ∃ is, lineInstrs here l = .ok is ∧ is.any proseForbids = false ∧
      is.all (wellFormed cfg) = true ∧ ws = is.map (encodeWord cfg) ++ lineData cfg.endian l := by
  unfold assembleLine
  cases hl : lineInstrs here l with
  | error e => simp
  | ok is =>
    simp only [Except.ok.injEq, exists_eq_left']
    cases hp : is.any proseForbids with
    | true => simp
    | false =>
      simp only [Bool.false_eq_true, if_false, true_and]
      cases he : encodeAll cfg is with
      | error e =>
        have : ¬ is.all (wellFormed cfg) = true := fun h => by simp [encodeAll_eq_ok.mpr ⟨h, rfl⟩] at he
        simp only [reduceCtorEq, false_iff]
        tauto
      | ok vs =>
        obtain ⟨hr, rfl⟩ := encodeAll_eq_ok.mp he
        simp only [Except.ok.injEq, hr, true_and, eq_comm]

/-- Everything `immLine` can answer when it accepts an operand: the one-word form within its range, the two-word form
for any other operand of 32 bits. -/
theorem immLine_eq_ok {rd : Reg} {v : Int} {literal : Word} {l : Line} :
    immLine rd v literal = .ok l ↔
      (-16 ≤ v ∧ v ≤ 15 ∧ l = .imm rd v) ∨
      ((v < -16 ∨ 15 < v) ∧ -2147483648 ≤ v ∧ v < 4294967296 ∧ l = .imm32 rd (BitVec.ofInt 32 v) literal) := by
  unfold immLine
  split
  · rename_i h
    simp only [Except.ok.injEq, h.1, h.2, true_and, eq_comm]
    exact ⟨.inl, fun h' => h'.elim id fun h'' => by omega⟩
  · rename_i h
    have h' : v < -16 ∨ 15 < v := by omega
    have hn : ¬ (-16 ≤ v ∧ v ≤ 15 ∧ l = .imm rd v) := fun e => h ⟨e.1, e.2.1⟩
    simp only [hn, h', false_or, true_and]
    split
    · rename_i hr
      simp only [Except.ok.injEq, hr.1, hr.2, true_and, eq_comm]
    · rename_i hr
      simp only [reduceCtorEq, false_iff]
      exact fun e => hr ⟨e.1, e.2.1⟩

/-- Placing bytes leaves all but memory. -/
@[simp] theorem placeBytes_regs (bs : List Byte) (s : State) (a : Word) : (s.placeBytes a bs).regs = s.regs := by
  induction bs generalizing s a with
  | nil => rfl
  | cons b rest ih => exact ih _ _
@[simp] theorem placeBytes_pc (bs : List Byte) (s : State) (a : Word) : (s.placeBytes a bs).pc = s.pc := by
  induction bs generalizing s a with
  | nil => rfl
  | cons b rest ih => exact ih _ _
@[simp] theorem placeBytes_written (bs : List Byte) (s : State) (a : Word) :
    (s.placeBytes a bs).written = s.written := by
  induction bs generalizing s a with
  | nil => rfl
  | cons b rest ih => exact ih _ _
@[simp] theorem placeBytes_cfg (bs : List Byte) (s : State) (a : Word) : (s.placeBytes a bs).cfg = s.cfg := by
  induction bs generalizing s a with
  | nil => rfl
  | cons b rest ih => exact ih _ _

/-- Placing a line's literal leaves all but memory. -/
@[simp] theorem placeLiteral_regs (s : State) (l : Line) : (s.placeLiteral l).regs = s.regs := by
  unfold State.placeLiteral; split <;> simp
@[simp] theorem placeLiteral_pc (s : State) (l : Line) : (s.placeLiteral l).pc = s.pc := by
  unfold State.placeLiteral; split <;> simp
@[simp] theorem placeLiteral_written (s : State) (l : Line) : (s.placeLiteral l).written = s.written := by
  unfold State.placeLiteral; split <;> simp
@[simp] theorem placeLiteral_cfg (s : State) (l : Line) : (s.placeLiteral l).cfg = s.cfg := by
  unfold State.placeLiteral; split <;> simp

end Sys2Proof.Machine
end

