-- ==== Sys2Proof/Laws/Decode.lean ====
section
/-! SUPPORT. The constant bits of each row of the precedence table as fields of the word, which is the column
"constant bits" of spec/30_encoding.md R62, and the parameter-dependent fields read back. -/

namespace Sys2Proof

/-- A mask of `n` ones at `lo` compares the field W[lo+n-1:lo]. -/
theorem and_eq_iff_field (w m b : Half) (lo n : Nat) (f : BitVec n)
    (hm : m = (BitVec.allOnes n).setWidth 16 <<< lo) (hb : b = f.setWidth 16 <<< lo) (hn : lo + n ≤ 16) :
    w &&& m = b ↔ w.extractLsb' lo n = f := by
  subst hm hb
  constructor
  · intro h
    apply BitVec.eq_of_getLsbD_eq
    intro i hi
    have h1 := congrArg (·.getLsbD (lo + i)) h
    have h2 : lo + i < 16 := by omega
    simpa [hi, h2] using h1
  · intro h
    apply BitVec.eq_of_getLsbD_eq
    intro i hi
    subst h
    by_cases h1 : i < lo <;> by_cases h2 : i - lo < n <;> simp [h1, h2, hi]
    congr 1
    omega

/-- Two disjoint masks compare both their parts. -/
theorem and_eq_iff_parts (w m1 m2 b1 b2 : Half) (h1 : b1 &&& m1 = b1) (h2 : b2 &&& m2 = b2) (h12 : m1 &&& m2 = 0#16) :
    w &&& (m1 ||| m2) = b1 ||| b2 ↔ w &&& m1 = b1 ∧ w &&& m2 = b2 := by
  have bit : ∀ (x y : Half) (i : Nat), x = y → x.getLsbD i = y.getLsbD i := fun x y i e => by rw [e]
  constructor
  · intro h
    constructor <;>
    · apply BitVec.eq_of_getLsbD_eq
      intro i _
      have a := bit _ _ i h
      have b := bit _ _ i h1
      have c := bit _ _ i h2
      have d := bit _ _ i h12
      simp only [BitVec.getLsbD_and, BitVec.getLsbD_or, BitVec.getLsbD_zero] at a b c d ⊢
      revert a b c d
      cases w.getLsbD i <;> cases m1.getLsbD i <;> cases m2.getLsbD i <;> cases b1.getLsbD i <;>
        cases b2.getLsbD i <;> simp
  · rintro ⟨e1, e2⟩
    rw [← e1, ← e2]
    apply BitVec.eq_of_getLsbD_eq
    intro i _
    simp only [BitVec.getLsbD_and, BitVec.getLsbD_or]
    cases w.getLsbD i <;> simp

theorem rowMatches_bal (w : Half) : rowMatches .bal w = true ↔ w.extractLsb' 4 4 = 0#4 := by
  simpa [rowMatches, rowMask, rowBits] using and_eq_iff_field w 0x00F0#16 0#16 4 4 0#4 rfl rfl (by omega)

theorem rowMatches_ext1 (w : Half) :
    rowMatches .ext1 w = true ↔ w.extractLsb' 12 4 = 0#4 ∧ w.extractLsb' 0 8 = 0x80#8 := by
  rw [← and_eq_iff_field w 0xF000#16 0#16 12 4 0#4 rfl rfl (by omega),
    ← and_eq_iff_field w 0x00FF#16 0x80#16 0 8 0x80#8 rfl rfl (by omega)]
  simpa [rowMatches, rowMask, rowBits] using and_eq_iff_parts w 0xF000#16 0x00FF#16 0#16 0x80#16 rfl rfl rfl

theorem rowMatches_ext2 (w : Half) : rowMatches .ext2 w = true ↔ w.extractLsb' 0 12 = 0x080#12 := by
  simpa [rowMatches, rowMask, rowBits] using and_eq_iff_field w 0x0FFF#16 0x80#16 0 12 0x080#12 rfl rfl (by omega)

theorem rowMatches_mul (w : Half) : rowMatches .mul w = true ↔ w.extractLsb' 0 8 = 0x80#8 := by
  simpa [rowMatches, rowMask, rowBits] using and_eq_iff_field w 0x00FF#16 0x80#16 0 8 0x80#8 rfl rfl (by omega)

theorem rowMatches_bin (w : Half) :
    rowMatches .bin w = true ↔ w.extractLsb' 12 4 = 0#4 ∧ w.extractLsb' 0 8 = 0x40#8 := by
  rw [← and_eq_iff_field w 0xF000#16 0#16 12 4 0#4 rfl rfl (by omega),
    ← and_eq_iff_field w 0x00FF#16 0x40#16 0 8 0x40#8 rfl rfl (by omega)]
  simpa [rowMatches, rowMask, rowBits] using and_eq_iff_parts w 0xF000#16 0x00FF#16 0#16 0x40#16 rfl rfl rfl

theorem rowMatches_sys (w : Half) :
    rowMatches .sys w = true ↔ w.extractLsb' 12 4 = 0#4 ∧ w.extractLsb' 0 8 = 0xC0#8 := by
  rw [← and_eq_iff_field w 0xF000#16 0#16 12 4 0#4 rfl rfl (by omega),
    ← and_eq_iff_field w 0x00FF#16 0xC0#16 0 8 0xC0#8 rfl rfl (by omega)]
  simpa [rowMatches, rowMask, rowBits] using and_eq_iff_parts w 0xF000#16 0x00FF#16 0#16 0xC0#16 rfl rfl rfl

theorem rowMatches_imm (w : Half) : rowMatches .imm w = true ↔ w.extractLsb' 0 7 = 0x40#7 := by
  simpa [rowMatches, rowMask, rowBits] using and_eq_iff_field w 0x007F#16 0x40#16 0 7 0x40#7 rfl rfl (by omega)

theorem rowMatches_bcc (w : Half) : rowMatches .bcc w = true ↔ w.extractLsb' 0 4 = 0#4 := by
  simpa [rowMatches, rowMask, rowBits] using and_eq_iff_field w 0x000F#16 0#16 0 4 0#4 rfl rfl (by omega)

theorem rowMatches_adr (w : Half) : rowMatches .adr w = true ↔ w.extractLsb' 4 2 = 3#2 := by
  simpa [rowMatches, rowMask, rowBits] using and_eq_iff_field w 0x0030#16 0x30#16 4 2 3#2 rfl rfl (by omega)

theorem rowMatches_alu (w : Half) : rowMatches .alu w = true ↔ w.extractLsb' 4 1 = 0#1 := by
  simpa [rowMatches, rowMask, rowBits] using and_eq_iff_field w 0x0010#16 0#16 4 1 0#1 rfl rfl (by omega)

theorem rowMatches_mem (w : Half) :
    rowMatches .mem w = true ↔ w.extractLsb' 11 5 = 0#5 ∧ w.extractLsb' 4 2 = 1#2 := by
  rw [← and_eq_iff_field w 0xF800#16 0#16 11 5 0#5 rfl rfl (by omega),
    ← and_eq_iff_field w 0x0030#16 0x10#16 4 2 1#2 rfl rfl (by omega)]
  simpa [rowMatches, rowMask, rowBits] using and_eq_iff_parts w 0xF800#16 0x0030#16 0#16 0x10#16 rfl rfl rfl

theorem rowMatches_inc (w : Half) :
    rowMatches .inc w = true ↔ w.extractLsb' 7 4 = 0#4 ∧ w.extractLsb' 4 2 = 1#2 := by
  rw [← and_eq_iff_field w 0x0780#16 0#16 7 4 0#4 rfl rfl (by omega),
    ← and_eq_iff_field w 0x0030#16 0x10#16 4 2 1#2 rfl rfl (by omega)]
  simpa [rowMatches, rowMask, rowBits] using and_eq_iff_parts w 0x0780#16 0x0030#16 0#16 0x10#16 rfl rfl rfl

theorem rowMatches_shi (w : Half) : rowMatches .shi w = true ↔ w.extractLsb' 4 2 = 1#2 := by
  simpa [rowMatches, rowMask, rowBits] using and_eq_iff_field w 0x0030#16 0x10#16 4 2 1#2 rfl rfl (by omega)

/-! A field of a word put together from fields. A word of 16 bits is an append whose two widths add up to 16 only after
evaluation, which simp does not see through; these instances name the widths. -/

theorem field_append_12_4 (x : BitVec 12) (y : BitVec 4) (lo n : Nat) :
    (x ++ y).extractLsb' lo n =
      if h : lo < 4 then
        if g : lo + n ≤ 4 then y.extractLsb' lo n
        else (x.extractLsb' (lo - 4) (n - (4 - lo)) ++ y.extractLsb' lo (4 - lo)).cast (by omega)
      else x.extractLsb' (lo - 4) n :=
  BitVec.extractLsb'_append_eq_ite

theorem field_append_8_8 (x : BitVec 8) (y : BitVec 8) (lo n : Nat) :
    (x ++ y).extractLsb' lo n =
      if h : lo < 8 then
        if g : lo + n ≤ 8 then y.extractLsb' lo n
        else (x.extractLsb' (lo - 8) (n - (8 - lo)) ++ y.extractLsb' lo (8 - lo)).cast (by omega)
      else x.extractLsb' (lo - 8) n :=
  BitVec.extractLsb'_append_eq_ite

theorem field_append_4_12 (x : BitVec 4) (y : BitVec 12) (lo n : Nat) :
    (x ++ y).extractLsb' lo n =
      if h : lo < 12 then
        if g : lo + n ≤ 12 then y.extractLsb' lo n
        else (x.extractLsb' (lo - 12) (n - (12 - lo)) ++ y.extractLsb' lo (12 - lo)).cast (by omega)
      else x.extractLsb' (lo - 12) n :=
  BitVec.extractLsb'_append_eq_ite

theorem field_append_9_7 (x : BitVec 9) (y : BitVec 7) (lo n : Nat) :
    (x ++ y).extractLsb' lo n =
      if h : lo < 7 then
        if g : lo + n ≤ 7 then y.extractLsb' lo n
        else (x.extractLsb' (lo - 7) (n - (7 - lo)) ++ y.extractLsb' lo (7 - lo)).cast (by omega)
      else x.extractLsb' (lo - 7) n :=
  BitVec.extractLsb'_append_eq_ite

theorem field_append_11_1 (x : BitVec 11) (y : BitVec 1) (lo n : Nat) :
    (x ++ y).extractLsb' lo n =
      if h : lo < 1 then
        if g : lo + n ≤ 1 then y.extractLsb' lo n
        else (x.extractLsb' (lo - 1) (n - (1 - lo)) ++ y.extractLsb' lo (1 - lo)).cast (by omega)
      else x.extractLsb' (lo - 1) n :=
  BitVec.extractLsb'_append_eq_ite

theorem field_append_10_2 (x : BitVec 10) (y : BitVec 2) (lo n : Nat) :
    (x ++ y).extractLsb' lo n =
      if h : lo < 2 then
        if g : lo + n ≤ 2 then y.extractLsb' lo n
        else (x.extractLsb' (lo - 2) (n - (2 - lo)) ++ y.extractLsb' lo (2 - lo)).cast (by omega)
      else x.extractLsb' (lo - 2) n :=
  BitVec.extractLsb'_append_eq_ite

theorem field_append_9_1 (x : BitVec 9) (y : BitVec 1) (lo n : Nat) :
    (x ++ y).extractLsb' lo n =
      if h : lo < 1 then
        if g : lo + n ≤ 1 then y.extractLsb' lo n
        else (x.extractLsb' (lo - 1) (n - (1 - lo)) ++ y.extractLsb' lo (1 - lo)).cast (by omega)
      else x.extractLsb' (lo - 1) n :=
  BitVec.extractLsb'_append_eq_ite

theorem field_append_8_4 (x : BitVec 8) (y : BitVec 4) (lo n : Nat) :
    (x ++ y).extractLsb' lo n =
      if h : lo < 4 then
        if g : lo + n ≤ 4 then y.extractLsb' lo n
        else (x.extractLsb' (lo - 4) (n - (4 - lo)) ++ y.extractLsb' lo (4 - lo)).cast (by omega)
      else x.extractLsb' (lo - 4) n :=
  BitVec.extractLsb'_append_eq_ite

theorem field_append_8_3 (x : BitVec 8) (y : BitVec 3) (lo n : Nat) :
    (x ++ y).extractLsb' lo n =
      if h : lo < 3 then
        if g : lo + n ≤ 3 then y.extractLsb' lo n
        else (x.extractLsb' (lo - 3) (n - (3 - lo)) ++ y.extractLsb' lo (3 - lo)).cast (by omega)
      else x.extractLsb' (lo - 3) n :=
  BitVec.extractLsb'_append_eq_ite

theorem field_append_5_4 (x : BitVec 5) (y : BitVec 4) (lo n : Nat) :
    (x ++ y).extractLsb' lo n =
      if h : lo < 4 then
        if g : lo + n ≤ 4 then y.extractLsb' lo n
        else (x.extractLsb' (lo - 4) (n - (4 - lo)) ++ y.extractLsb' lo (4 - lo)).cast (by omega)
      else x.extractLsb' (lo - 4) n :=
  BitVec.extractLsb'_append_eq_ite

theorem field_append_4_5 (x : BitVec 4) (y : BitVec 5) (lo n : Nat) :
    (x ++ y).extractLsb' lo n =
      if h : lo < 5 then
        if g : lo + n ≤ 5 then y.extractLsb' lo n
        else (x.extractLsb' (lo - 5) (n - (5 - lo)) ++ y.extractLsb' lo (5 - lo)).cast (by omega)
      else x.extractLsb' (lo - 5) n :=
  BitVec.extractLsb'_append_eq_ite

theorem field_append_4_4 (x : BitVec 4) (y : BitVec 4) (lo n : Nat) :
    (x ++ y).extractLsb' lo n =
      if h : lo < 4 then
        if g : lo + n ≤ 4 then y.extractLsb' lo n
        else (x.extractLsb' (lo - 4) (n - (4 - lo)) ++ y.extractLsb' lo (4 - lo)).cast (by omega)
      else x.extractLsb' (lo - 4) n :=
  BitVec.extractLsb'_append_eq_ite

theorem field_append_3_7 (x : BitVec 3) (y : BitVec 7) (lo n : Nat) :
    (x ++ y).extractLsb' lo n =
      if h : lo < 7 then
        if g : lo + n ≤ 7 then y.extractLsb' lo n
        else (x.extractLsb' (lo - 7) (n - (7 - lo)) ++ y.extractLsb' lo (7 - lo)).cast (by omega)
      else x.extractLsb' (lo - 7) n :=
  BitVec.extractLsb'_append_eq_ite

/-- Whichever order COND_CODES takes, a condition's code reads back as the condition (R71). -/
@[simp] theorem condOfCode_condCode (cc : CondCodes) (c : Cond) : condOfCode cc (condCode cc c) = some c := by
  cases cc <;> cases c <;> rfl

/-- A nonzero code names a condition, whose code it is; 00 names none (R71). -/
theorem condOfCode_eq_some {cc : CondCodes} {code : BitVec 2} {c : Cond} :
    condOfCode cc code = some c ↔ code = condCode cc c := by
  revert code; cases cc <;> cases c <;> decide

theorem condOfCode_eq_none {cc : CondCodes} {code : BitVec 2} : condOfCode cc code = none ↔ code = 0#2 := by
  revert code; cases cc <;> decide

/-- The pair field of a pair PAIR_MAP names is the field it was named by (R103). -/
@[simp] theorem pairField_pairRegs (pm : PairMap) (p : BitVec 3) :
    pairField pm (pairRegs pm p).1 (pairRegs pm p).2 = p := by
  revert p; cases pm <;> decide

/-- Every field value names a valid pair (R103). -/
@[simp] theorem isPair_pairRegs (pm : PairMap) (p : BitVec 3) :
    isPair pm (pairRegs pm p).1 (pairRegs pm p).2 = true := by
  simp [isPair]

@[simp] theorem isLoad_lBit (lp : LPolarity) (b : Bool) : isLoad lp (lBit lp b) = b := by
  cases lp <;> cases b <;> rfl

@[simp] theorem isFirst_sBit (sp : SPolarity) (b : Bool) : isFirst sp (sBit sp b) = b := by
  cases sp <;> cases b <;> rfl

@[simp] theorem immOfField_fieldOfImm (ib : ImmBits) (v : BitVec 5) : immOfField ib (fieldOfImm ib v) = v := by
  revert v; cases ib <;> decide

@[simp] theorem fieldOfImm_immOfField (ib : ImmBits) (f : BitVec 5) : fieldOfImm ib (immOfField ib f) = f := by
  revert f; cases ib <;> decide

/-- The half word the two bytes of a half word make is that half word (R48). -/
@[simp] theorem joinHalf_halfBytes (e : Endian) (w : Half) : joinHalf e (halfBytes e w).1 (halfBytes e w).2 = w := by
  have h : (w.extractLsb' 8 8 ++ w.extractLsb' 0 8 : BitVec (8 + 8)) = w := by
    apply BitVec.eq_of_getLsbD_eq
    intro i hi
    rw [BitVec.getLsbD_append]
    split
    · rename_i h8; simp [h8]
    · rename_i h8
      have : 8 + (i - 8) = i := by omega
      have h16 : i - 8 < 8 := by omega
      simp [this, h16]
  cases e <;> exact h

end Sys2Proof
end

