-- ==== Sys2Proof/Laws/Exec.lean ====
section
/-! SUPPORT. What a fetch, a step and the two memory instructions can answer, each said once. -/

namespace Sys2Proof.Machine

/-- An address is even when half of it is whole. -/
theorem isEven_eq_true {a : Word} : isEven a = true ↔ a.toNat % 2 = 0 := by
  unfold isEven
  rw [beq_iff_eq, ← BitVec.toNat_inj]
  simp [BitVec.extractLsb'_toNat]

/-- The alignment check of the fetch succeeds on an even pc, or when FETCH_ALIGN_POLICY ignores bit 0 (R46). -/
theorem checkFetchAlign_eq_ok {s : State} :
    checkFetchAlign s = .ok () ↔ s.cfg.fetchAlign = .ignoreBit0 ∨ s.pc.toNat % 2 = 0 := by
  unfold checkFetchAlign
  cases s.cfg.fetchAlign with
  | ignoreBit0 => simp
  | fault => simp only [reduceCtorEq, false_or, ← isEven_eq_true]; split <;> simp_all

/-- The SMC check of the fetch succeeds when no byte of it was written, or when SMC_POLICY is `coherent` (R56). -/
theorem checkUnmodified_eq_ok {s : State} :
    checkUnmodified s = .ok () ↔ s.cfg.smc = .coherent ∨
      ((fetchAddr s).toNat ∉ s.written ∧ (fetchAddr s + 1#32).toNat ∉ s.written) := by
  unfold checkUnmodified State.isWritten
  cases s.cfg.smc with
  | coherent => simp
  | fault =>
    simp only [reduceCtorEq, false_or]
    split
    · rename_i h
      simp only [reduceCtorEq, false_iff]
      intro ⟨h1, h2⟩
      simp_all
    · rename_i h
      simp_all

/-- Everything a fetch can answer when it succeeds (R202). -/
theorem fetch_eq_ok {s : State} {w : Half} :
    fetch s = .ok w ↔
      (s.cfg.fetchAlign = .ignoreBit0 ∨ s.pc.toNat % 2 = 0) ∧ AllMapped s.cfg (fetchAddr s) 2 ∧
      (s.cfg.smc = .coherent ∨
        ((fetchAddr s).toNat ∉ s.written ∧ (fetchAddr s + 1#32).toNat ∉ s.written)) ∧
      ∃ b0 b1, s.byte? (fetchAddr s) = some b0 ∧ s.byte? (fetchAddr s + 1#32) = some b1 ∧
        w = joinHalf s.cfg.endian b0 b1 := by
  simp only [fetch, bind_eq_ok]
  constructor
  · rintro ⟨_, h1, _, h2, _, h3, h4⟩
    exact ⟨checkFetchAlign_eq_ok.mp h1, checkMapped_eq_ok.mp h2, checkUnmodified_eq_ok.mp h3,
      (memReadHalf_eq_ok.mp h4).2⟩
  · rintro ⟨h1, h2, h3, h4⟩
    exact ⟨(), checkFetchAlign_eq_ok.mpr h1, (), checkMapped_eq_ok.mpr h2, (), checkUnmodified_eq_ok.mpr h3,
      memReadHalf_eq_ok.mpr ⟨h2, h4⟩⟩

/-- A step that answers a next state has fetched a word, decoded it and executed the instruction. -/
theorem step_eq_next {s t : State} :
    step s = .next t ↔ ∃ w i, fetch s = .ok w ∧ decode s.cfg w = .ok i ∧ exec i s = .next t := by
  unfold step
  cases hf : fetch s with
  | error f => simp
  | ok w =>
    simp only [Except.ok.injEq]
    constructor
    · intro h
      split at h
      · rename_i i hd; exact ⟨w, i, rfl, hd, h⟩
      · cases h
    · rintro ⟨w, i, rfl, hd, h⟩
      rw [hd]; exact h

/-- Everything LDW can answer when it completes (R141, R143). -/
theorem execLdw_eq_next {rd ra : Reg} {s t : State} :
    execLdw rd ra s = .next t ↔ RaAllowed s.cfg ra ∧ AlignAllowed s.cfg (s.reg ra) ∧
      ∃ v, memReadWord s (s.reg ra) = .ok v ∧ t = s.writeAndAdvance rd v := by
  simp only [execLdw, finish_eq_next, bind_eq_ok, pure, Except.pure, Except.ok.injEq]
  constructor
  · rintro ⟨_, h1, _, h2, v, h3, rfl⟩
    exact ⟨checkRaField_eq_ok.mp h1, checkDataAlign_eq_ok.mp h2, v, h3, rfl⟩
  · rintro ⟨h1, h2, v, h3, rfl⟩
    exact ⟨(), checkRaField_eq_ok.mpr h1, (), checkDataAlign_eq_ok.mpr h2, v, h3, rfl⟩

/-- Everything STW can answer when it completes (R142, R143). -/
theorem execStw_eq_next {rd ra : Reg} {s t : State} :
    execStw rd ra s = .next t ↔ RaAllowed s.cfg ra ∧ AlignAllowed s.cfg (s.reg rd) ∧
      AllMapped s.cfg (s.reg rd) 4 ∧ t = (s.storeWord (s.reg rd) (s.reg ra)).advance := by
  simp only [execStw, finish_eq_next, bind_eq_ok, pure, Except.pure, Except.ok.injEq, memWriteWord_eq_ok]
  constructor
  · rintro ⟨_, h1, _, h2, u, ⟨h3, rfl⟩, rfl⟩
    exact ⟨checkRaField_eq_ok.mp h1, checkDataAlign_eq_ok.mp h2, h3, rfl⟩
  · rintro ⟨h1, h2, h3, rfl⟩
    exact ⟨(), checkRaField_eq_ok.mpr h1, (), checkDataAlign_eq_ok.mpr h2, _, ⟨h3, rfl⟩, rfl⟩

end Sys2Proof.Machine
end

