-- ==== Sys2Proof/Laws/PerInstr.lean ====
section
/-! SUPPORT. A fact about every instruction as syntax: its word has the constant bits of its own row of the precedence
table (spec/30_encoding.md R62). -/

namespace Sys2Proof.Laws.RowBits

/-- The row an instruction is encoded in (R64 to R76). -/
def rowFor (i : Instr) : Row :=
  match i with
  | .bal _ => .bal
  | .ext1 _ => .ext1
  | .ext2 _ => .ext2
  | .mul _ _ => .mul
  | .bin _ => .bin
  | .sys _ => .sys
  | .imm _ _ => .imm
  | .beq _ _ _ => .bcc
  | .bne _ _ _ => .bcc
  | .blt _ _ _ => .bcc
  | .adr _ _ => .adr
  | .and _ _ _ => .alu
  | .orr _ _ _ => .alu
  | .xor _ _ _ => .alu
  | .shl _ _ _ => .alu
  | .shr _ _ _ => .alu
  | .add _ _ _ => .alu
  | .sub _ _ _ => .alu
  | .ldw _ _ => .mem
  | .stw _ _ => .mem
  | .inc _ _ => .inc
  | .dec _ _ => .inc
  | .sli _ _ _ => .shi
  | .sri _ _ _ => .shi

/-- The word of the instruction has the constant bits of its row. -/
def Statement (i : Instr) : Prop :=
  ∀ cfg : Config, rowMatches (rowFor i) (encodeWord cfg i) = true

theorem bal (off : BitVec 12) : Statement (.bal off) := by
  intro cfg
  simp [rowFor, encodeWord, rowMatches_bal, field_append_12_4, field_append_8_4]

theorem ext1 (imm : BitVec 4) : Statement (.ext1 imm) := by
  intro cfg
  simp [rowFor, encodeWord, rowMatches_ext1, field_append_8_8, field_append_4_4]

theorem ext2 (imm : BitVec 4) : Statement (.ext2 imm) := by
  intro cfg
  simp [rowFor, encodeWord, rowMatches_ext2, field_append_4_12]

theorem mul (rz ra : Reg) : Statement (.mul rz ra) := by
  intro cfg
  simp [rowFor, encodeWord, rowMatches_mul, field_append_8_8]

theorem bin (ra : Reg) : Statement (.bin ra) := by
  intro cfg
  simp [rowFor, encodeWord, rowMatches_bin, field_append_8_8, field_append_4_4]

theorem sys (imm : BitVec 4) : Statement (.sys imm) := by
  intro cfg
  simp [rowFor, encodeWord, rowMatches_sys, field_append_8_8, field_append_4_4]

theorem imm (rd : Reg) (imm : BitVec 5) : Statement (.imm rd imm) := by
  intro cfg
  simp [rowFor, encodeWord, rowMatches_imm, field_append_9_7]

theorem bccWord_row (cfg : Config) (c : Cond) (ra rb : Reg) (off : BitVec 7) :
    rowMatches .bcc (bccWord cfg c ra rb off) = true := by
  simp [bccWord, rowMatches_bcc, field_append_12_4]

theorem beq (ra rb : Reg) (off : BitVec 7) : Statement (.beq ra rb off) :=
  fun cfg => bccWord_row cfg .eq ra rb off

theorem bne (ra rb : Reg) (off : BitVec 7) : Statement (.bne ra rb off) :=
  fun cfg => bccWord_row cfg .ne ra rb off

theorem blt (ra rb : Reg) (off : BitVec 7) : Statement (.blt ra rb off) :=
  fun cfg => bccWord_row cfg .lt ra rb off

theorem adr (rd : Reg) (off : BitVec 10) : Statement (.adr rd off) := by
  intro cfg
  simp [rowFor, encodeWord, rowMatches_adr, field_append_12_4, field_append_10_2]

theorem aluWord_row (op : BitVec 3) (rd ra rb : Reg) : rowMatches .alu (aluWord op rd ra rb) = true := by
  simp [aluWord, rowMatches_alu, field_append_12_4, field_append_11_1]

theorem and (rd ra rb : Reg) : Statement (.and rd ra rb) := fun _ => aluWord_row _ rd ra rb

theorem orr (rd ra rb : Reg) : Statement (.orr rd ra rb) := fun _ => aluWord_row _ rd ra rb

theorem xor (rd ra rb : Reg) : Statement (.xor rd ra rb) := fun _ => aluWord_row _ rd ra rb

theorem shl (rd ra rb : Reg) : Statement (.shl rd ra rb) := fun _ => aluWord_row _ rd ra rb

theorem shr (rd ra rb : Reg) : Statement (.shr rd ra rb) := fun _ => aluWord_row _ rd ra rb

theorem add (rd ra rb : Reg) : Statement (.add rd ra rb) := fun _ => aluWord_row _ rd ra rb

theorem sub (rd ra rb : Reg) : Statement (.sub rd ra rb) := fun _ => aluWord_row _ rd ra rb

theorem ldw (rd ra : Reg) : Statement (.ldw rd ra) := by
  intro cfg
  simp [rowFor, encodeWord, rowMatches_mem, field_append_12_4, field_append_10_2, field_append_9_1, field_append_5_4]

theorem stw (rd ra : Reg) : Statement (.stw rd ra) := by
  intro cfg
  simp [rowFor, encodeWord, rowMatches_mem, field_append_12_4, field_append_10_2, field_append_9_1, field_append_5_4]

theorem inc (rz : Reg) (imm : BitVec 5) : Statement (.inc rz imm) := by
  intro cfg
  simp [rowFor, encodeWord, rowMatches_inc, field_append_12_4, field_append_10_2, field_append_9_1, field_append_5_4]

theorem dec (rz : Reg) (imm : BitVec 5) : Statement (.dec rz imm) := by
  intro cfg
  simp [rowFor, encodeWord, rowMatches_inc, field_append_12_4, field_append_10_2, field_append_9_1, field_append_5_4]

theorem sli (rd ra : Reg) (imm : BitVec 5) : Statement (.sli rd ra imm) := by
  intro cfg
  simp [rowFor, encodeWord, rowMatches_shi, field_append_12_4, field_append_10_2]

theorem sri (rd ra : Reg) (imm : BitVec 5) : Statement (.sri rd ra imm) := by
  intro cfg
  simp [rowFor, encodeWord, rowMatches_shi, field_append_12_4, field_append_10_2]

end Sys2Proof.Laws.RowBits
end

