-- ==== Sys2Proof/Tests/Slice0.lean ====
section
/-! SUPPORT. The model's own tests. Expected results are those of spec/95_test_vectors.md (the vectors V<n> and the
disassemblies of spec/30_encoding.md) or are computed by hand from a rule. The last part shows, for each obligation with
hypotheses, a state and operands that meet them. -/

namespace Sys2Proof.Tests

open Sys2Proof Sys2Proof.Machine

/-! Helpers. -/

/-- The parameters of the vectors: the defaults, with the memory 95_test_vectors.md gives them. -/
def vecCfg : Config := { Config.default with regions := [⟨0x0, 0x400⟩, ⟨0x1000, 0x10⟩] }

/-- A state with these registers and these bytes in memory. -/
def mkState (regs : List (Nat × Nat)) (mem : List (Nat × List Nat)) (pc : Nat := 0x100) (cfg : Config := vecCfg) :
    State :=
  let s0 := { State.resetWith (Vector.replicate 15 0#32) cfg with pc := BitVec.ofNat 32 pc }
  let s1 := regs.foldl (fun s p => s.setReg (BitVec.ofNat 4 p.1) (BitVec.ofNat 32 p.2)) s0
  mem.foldl (fun s p => s.placeBytes (BitVec.ofNat 32 p.1) (p.2.map (BitVec.ofNat 8))) s1

/-- One step that fetches the word `w` at `pc`. -/
def stepOf (w : Nat) (s : State) : Host.Outcome State Fault Refusal :=
  step (s.placeHalf s.pc (BitVec.ofNat 16 w))

/-- pc and one register after a completed step. -/
def pcAnd (r : Nat) (o : Host.Outcome State Fault Refusal) : Option (Nat × Nat) :=
  match o with
  | .next t => some (t.pc.toNat, (t.reg (BitVec.ofNat 4 r)).toNat)
  | .fault _ => none
  | .refused _ => none

/-- The four bytes at an address after a completed step. -/
def bytesAt (a : Nat) (o : Host.Outcome State Fault Refusal) : Option (List (Option Byte)) :=
  match o with
  | .next t => some ((List.range 4).map fun k => t.byte? (BitVec.ofNat 32 (a + k)))
  | .fault _ => none
  | .refused _ => none

/-- The fault of a step. -/
def faultOf (o : Host.Outcome State Fault Refusal) : Option Fault :=
  match o with
  | .next _ => none
  | .fault f => some f
  | .refused _ => none

/-! WellFormed refuses an ill-formed term for each check (R80, R83, R172). -/

theorem test_wf_zeroDest : illFormed .default (.and 0#4 1#4 2#4) = some .zeroDest := by decide
theorem test_wf_zeroDest_stw : illFormed .default (.stw 0#4 1#4) = some .zeroDest := by decide
theorem test_wf_zeroSource : illFormed .default (.mul 1#4 0#4) = some .zeroSource := by decide
theorem test_wf_zeroImm : illFormed .default (.inc 1#4 0#5) = some .zeroImm := by decide
theorem test_wf_zeroImm_ext2 : illFormed .default (.ext2 0#4) = some .zeroImm := by decide
theorem test_wf_notAPair : illFormed .default (.beq 1#4 2#4 0#7) = some .notAPair := by decide
theorem test_wf_pair_of_another_map :
    illFormed { Config.default with pairMap := .oddNext } (.beq 1#4 2#4 0#7) = none := by decide
theorem test_wf_accepts_ra_zero : illFormed .default (.stw 1#4 0#4) = none := by decide

/-! Words written out bit by bit from the format tables of R64 to R76, for every constructor. -/

/-- 0xFF0F: off12 = 11111111 ∥ 1111. -/
theorem test_dec_bal : decodeTableWord 16 0b1111111100001111 = some (.bal 0xFFF#12) := by decide
theorem test_dec_ext1 : decodeTableWord 16 0b0000010110000000 = some (.ext1 5#4) := by decide
theorem test_dec_ext2 : decodeTableWord 16 0b1111000010000000 = some (.ext2 15#4) := by decide
/-- 0xDA80, `mul s2, s2, a1`: ra in the top four bits. -/
theorem test_dec_mul : decodeTableWord 16 0b1101101010000000 = some (.mul 10#4 13#4) := by decide
theorem test_dec_bin : decodeTableWord 16 0b0000111101000000 = some (.bin 15#4) := by decide
theorem test_dec_sys : decodeTableWord 16 0b0000001111000000 = some (.sys 3#4) := by decide
/-- 0xCEC0, `imm a0, -3`. -/
theorem test_dec_imm : decodeTableWord 16 0b1100111011000000 = some (.imm 12#4 0b11101#5) := by decide
/-- 0xC150, `beq a0, a1, +5 instructions`. -/
theorem test_dec_beq : decodeTableWord 16 0b1100000101010000 = some (.beq 12#4 13#4 5#7) := by decide
/-- 0x1FA0, `bne r0, r1, -2 instructions`. -/
theorem test_dec_bne : decodeTableWord 16 0b0001111110100000 = some (.bne 0#4 1#4 0b1111110#7) := by decide
/-- 0x20B0, `blt r2, r3, +2 instructions`. -/
theorem test_dec_blt : decodeTableWord 16 0b0010000010110000 = some (.blt 2#4 3#4 2#7) := by decide
theorem test_dec_adr : decodeTableWord 16 0b0000000010111111 = some (.adr 15#4 2#10) := by decide
theorem test_dec_and : decodeTableWord 16 0b0001001000100011 = some (.and 3#4 1#4 2#4) := by decide
theorem test_dec_orr : decodeTableWord 16 0b0001001001000011 = some (.orr 3#4 1#4 2#4) := by decide
theorem test_dec_xor : decodeTableWord 16 0b0001001001100011 = some (.xor 3#4 1#4 2#4) := by decide
theorem test_dec_shl : decodeTableWord 16 0b0001001010000011 = some (.shl 3#4 1#4 2#4) := by decide
theorem test_dec_shr : decodeTableWord 16 0b0001001010100011 = some (.shr 3#4 1#4 2#4) := by decide
theorem test_dec_add : decodeTableWord 16 0b0001001011000011 = some (.add 3#4 1#4 2#4) := by decide
theorem test_dec_sub : decodeTableWord 16 0b0001001011100011 = some (.sub 3#4 1#4 2#4) := by decide
/-- 0x075E, `ldw sp, [sp]`. -/
theorem test_dec_ldw : decodeTableWord 16 0b0000011101011110 = some (.ldw 14#4 14#4) := by decide
/-- 0x061E, `stw [sp], a0`. -/
theorem test_dec_stw : decodeTableWord 16 0b0000011000011110 = some (.stw 14#4 12#4) := by decide
/-- 0x201E, `inc sp, 4`. -/
theorem test_dec_inc : decodeTableWord 16 0b0010000000011110 = some (.inc 14#4 4#5) := by decide
/-- 0x205E, `dec sp, 4`. -/
theorem test_dec_dec : decodeTableWord 16 0b0010000001011110 = some (.dec 14#4 4#5) := by decide
/-- 0x2511, `sli r1, r10, 4`. -/
theorem test_dec_sli : decodeTableWord 16 0b0010010100010001 = some (.sli 1#4 10#4 4#5) := by decide
theorem test_dec_sri : decodeTableWord 16 0b0010010101010001 = some (.sri 1#4 10#4 4#5) := by decide
theorem test_dec_short : decodeBytes .default [0x40#8] = .error .truncated := by decide
/-- R42: the first byte in memory is the low one under `little`, the high one under `big`. -/
theorem test_dec_bytes_little : decodeBytes .default [0x23#8, 0x12#8, 0x99#8] = .ok (.and 3#4 1#4 2#4, [0x99#8]) := by
  decide
theorem test_dec_bytes_big :
    decodeBytes { Config.default with endian := .big } [0x12#8, 0x23#8] = .ok (.and 3#4 1#4 2#4, []) := by decide

/-! One step each, from spec/95_test_vectors.md. -/

/-- V5: off12 = -2048; the target wraps to 0. -/
theorem test_V5_bal : pcAnd 1 (stepOf 0x8000 (mkState [] [] 0x1000)) = some (0, 0) := by decide
/-- V6: the target wraps below 0. -/
theorem test_V6_bal : pcAnd 1 (stepOf 0xFF0E (mkState [] [] 2)) = some (0xFFFFFFFE, 0) := by decide
theorem test_V9_bin : pcAnd 5 (stepOf 0x0540 (mkState [(5, 0x201)] [])) = some (0x201, 0x201) := by decide
theorem test_V10_beq : pcAnd 12 (stepOf 0xC150 (mkState [(12, 7), (13, 7)] [])) = some (0x10A, 7) := by decide
theorem test_V11_beq : pcAnd 12 (stepOf 0xC150 (mkState [(12, 7), (13, 8)] [])) = some (0x102, 7) := by decide
theorem test_V12_bne : pcAnd 1 (stepOf 0x1FA0 (mkState [(1, 3)] [])) = some (0xFC, 3) := by decide
theorem test_V13_bne : pcAnd 1 (stepOf 0x1FA0 (mkState [] [])) = some (0x102, 0) := by decide
/-- V16: the comparison is signed. -/
theorem test_V16_blt : pcAnd 2 (stepOf 0x20B0 (mkState [(2, 0x80000000), (3, 0x7FFFFFFF)] [])) =
    some (0x104, 0x80000000) := by decide
theorem test_V17_blt : pcAnd 2 (stepOf 0x20B0 (mkState [(2, 5), (3, 5)] [])) = some (0x102, 5) := by decide
theorem test_V21_adr : pcAnd 15 (stepOf 0x00BF (mkState [] [])) = some (0x102, 0x104) := by decide
/-- V23: off10 = -512; the address wraps. -/
theorem test_V23_adr : pcAnd 3 (stepOf 0x8033 (mkState [] [] 0x3FE)) = some (0x400, 0xFFFFFFFE) := by decide
theorem test_V30_and : pcAnd 3 (stepOf 0x1223 (mkState [(1, 0xF0F0A5A5), (2, 0x0FF0FF00)] [])) =
    some (0x102, 0x00F0A500) := by decide
theorem test_V31_orr : pcAnd 3 (stepOf 0x1243 (mkState [(1, 0xF0F0A5A5), (2, 0x0FF0FF00)] [])) =
    some (0x102, 0xFFF0FFA5) := by decide
theorem test_V32_xor : pcAnd 3 (stepOf 0x1263 (mkState [(1, 0xF0F0A5A5), (2, 0x0FF0FF00)] [])) =
    some (0x102, 0xFF005AA5) := by decide
theorem test_V36_add : pcAnd 3 (stepOf 0x12C3 (mkState [(1, 0x7FFFFFFF), (2, 1)] [])) = some (0x102, 0x80000000) := by
  decide
/-- V39: the destination is both sources. -/
theorem test_V39_add : pcAnd 1 (stepOf 0x11C1 (mkState [(1, 0x40000000)] [])) = some (0x102, 0x80000000) := by decide
theorem test_V37_sub : pcAnd 3 (stepOf 0x12E3 (mkState [(1, 0), (2, 1)] [])) = some (0x102, 0xFFFFFFFF) := by decide
/-- V44: a count of 32, under each SHIFT_AMOUNT_MODE. -/
theorem test_V44_shl : pcAnd 3 (stepOf 0x1283 (mkState [(1, 0x80000001), (2, 32)] [])) = some (0x102, 0) := by decide
theorem test_V44_shl_mod32 : pcAnd 3 (stepOf 0x1283
    (mkState [(1, 0x80000001), (2, 32)] [] 0x100 { vecCfg with shiftAmount := .mod32 })) =
      some (0x102, 0x80000001) := by decide
/-- V46, under each SHR_KIND. -/
theorem test_V46_shr : pcAnd 3 (stepOf 0x12A3 (mkState [(1, 0x80000001), (2, 4)] [])) = some (0x102, 0x08000000) := by
  decide
theorem test_V46_shr_arithmetic : pcAnd 3 (stepOf 0x12A3
    (mkState [(1, 0x80000001), (2, 4)] [] 0x100 { vecCfg with shrKind := .arithmetic })) =
      some (0x102, 0xF8000000) := by decide
theorem test_V55_inc : pcAnd 1 (stepOf 0xF811 (mkState [(1, 0xFFFFFFF0)] [])) = some (0x102, 0xF) := by decide
theorem test_V56_dec : pcAnd 1 (stepOf 0x0851 (mkState [] [])) = some (0x102, 0xFFFFFFFF) := by decide
theorem test_V59_sli : pcAnd 2 (stepOf 0xF912 (mkState [(2, 3)] [])) = some (0x102, 0x80000000) := by decide
theorem test_V58_sri : pcAnd 1 (stepOf 0x2551 (mkState [(10, 0x800002A0)] [])) = some (0x102, 0x0800002A) := by decide
theorem test_V58_sri_arithmetic : pcAnd 1 (stepOf 0x2551
    (mkState [(10, 0x800002A0)] [] 0x100 { vecCfg with shrKind := .arithmetic })) = some (0x102, 0xF800002A) := by
  decide
theorem test_V73_mul : pcAnd 1 (stepOf 0x2180 (mkState [(1, 0xFFFFFFFE), (2, 3)] [])) = some (0x102, 0xFFFFFFFA) := by
  decide
/-- V75: the destination is also the other factor. -/
theorem test_V75_mul : pcAnd 1 (stepOf 0x1180 (mkState [(1, 0xFFFF)] [])) = some (0x102, 0xFFFE0001) := by decide
theorem test_V80_ldw : pcAnd 1 (stepOf 0x0151 (mkState [(2, 0x200)] [(0x200, [0x44, 0x33, 0x22, 0x11])])) =
    some (0x102, 0x11223344) := by decide
theorem test_V81_ldw_big : pcAnd 1 (stepOf 0x0151
    (mkState [(2, 0x200)] [(0x200, [0x44, 0x33, 0x22, 0x11])] 0x100 { vecCfg with endian := .big })) =
      some (0x102, 0x44332211) := by decide
theorem test_V87_stw : bytesAt 0x200 (stepOf 0x0092 (mkState [(1, 0xAABBCCDD), (2, 0x200)] [])) =
    some [some 0xDD#8, some 0xCC#8, some 0xBB#8, some 0xAA#8] := by decide
theorem test_V88_stw_big : bytesAt 0x200 (stepOf 0x0092
    (mkState [(1, 0xAABBCCDD), (2, 0x200)] [] 0x100 { vecCfg with endian := .big })) =
      some [some 0xAA#8, some 0xBB#8, some 0xCC#8, some 0xDD#8] := by decide
/-- V102, V103: the sign of imm5. -/
theorem test_V102_imm : pcAnd 1 (stepOf 0x1EC0 (mkState [] [])) = some (0x102, 0xFFFFFFFD) := by decide
theorem test_V102_imm_alternative : pcAnd 1 (stepOf 0x1EC0
    (mkState [] [] 0x100 { vecCfg with immBits := .signInBit7 })) = some (0x102, 0xFFFFFFFE) := by decide
theorem test_V110_ext : faultOf (stepOf 0x0580 (mkState [] [])) = some (.extUndefined 5#8) := by decide
theorem test_V112_ext : faultOf (stepOf 0xF080 (mkState [] [])) = some (.extUndefined 240#8) := by decide
theorem test_V114_sys : faultOf (stepOf 0x0FC0 (mkState [] [])) = some (.sysUndefined 15#4) := by decide

/-- From reset, the first step with `add r3, r1, r2` placed runs it. -/
theorem test_first_step : pcAnd 3 (step (State.reset.withFetchWord 16 0x12C3)) = some (2, 0) := by decide
/-- From reset with no image, the first fetch finds no value (log 5). -/
theorem test_bare_reset : faultOf (step State.reset) = some (.unwrittenMemory 0#32) := by decide
/-- The example of 95_test_vectors.md: `blk` at 0x10 to 0x1A. -/
theorem test_blk : assembleLine .default 0x10#32 (.blk 0x1A#32) = .ok [0x00BF#16, 0x0004#16] := by decide
theorem test_psh : assembleLine .default 0#32 (.psh [15#4]) = .ok [0x205E#16, 0x079E#16] := by decide
/-- R172, R143, R187: the mnemonic is refused and `hword` assembles the word. -/
theorem test_asm_prose : assembleLine .default 0#32 (.stw 1#4 0#4) = .error .proseForbids ∧
    assembleLine .default 0#32 (.ldw 1#4 0#4) = .error .proseForbids ∧
    assembleLine .default 0#32 (.psh [1#4, 0#4]) = .error .proseForbids ∧
    assembleLine .default 0#32 (.hword 0x0011#16) = .ok [0x0011#16] := by decide
/-- Whether a line at `here` is accepted under the default parameters. -/
def accepted (here : Nat) (l : Line) : Bool :=
  (assembleLine .default (BitVec.ofNat 32 here) l).toBool

/-! Both ends of every range of R172 and one beyond each, for AnAssemblerAcceptsExactlyTheseOperands. -/

theorem test_witness_asm_inc_dec :
    ([1, 31].all fun n => accepted 0 (.inc 1#4 n) && accepted 0 (.dec 15#4 n)) = true ∧
      ([0, 32].any fun n => accepted 0 (.inc 1#4 n) || accepted 0 (.dec 15#4 n)) = false := by decide
theorem test_witness_asm_sli_sri :
    ([1, 31].all fun n => accepted 0 (.sli 1#4 15#4 n) && accepted 0 (.sri 15#4 1#4 n)) = true ∧
      ([0, 32].any fun n => accepted 0 (.sli 1#4 15#4 n) || accepted 0 (.sri 15#4 1#4 n)) = false := by decide
theorem test_witness_asm_imm :
    ([-16, 15].all fun v => accepted 0 (.imm 1#4 v)) = true ∧
      ([-17, 16].any fun v => accepted 0 (.imm 1#4 v)) = false := by decide
theorem test_witness_asm_ext :
    ([0, 15, 16, 240].all fun n => accepted 0 (.ext n)) = true ∧
      ([17, 255, 256].any fun n => accepted 0 (.ext n)) = false := by decide
theorem test_witness_asm_sys :
    ([0, 15].all fun n => accepted 0 (.sys n)) = true ∧ accepted 0 (.sys 16) = false := by decide
/-- BEQ, BNE, BLT: -64 and 63 instructions, -65 and 64, an odd distance, no pair. -/
theorem test_witness_asm_bcc :
    ([0x180#32, 0x27E#32].all fun t =>
      accepted 0x200 (.beq 0#4 1#4 t) && accepted 0x200 (.bne 14#4 15#4 t) && accepted 0x200 (.blt 2#4 3#4 t)) = true ∧
    ([0x17E#32, 0x280#32, 0x201#32].any fun t =>
      accepted 0x200 (.beq 0#4 1#4 t) || accepted 0x200 (.bne 14#4 15#4 t) || accepted 0x200 (.blt 2#4 3#4 t)) =
        false ∧
    accepted 0x200 (.beq 1#4 2#4 0x200#32) = false := by decide
/-- ADR and the two-word `imm`: -512 and 511 instructions, -513 and 512, an odd distance. -/
theorem test_witness_asm_adr_imm32 :
    ([0x400#32, 0xBFE#32].all fun t => accepted 0x800 (.adr 1#4 t) && accepted 0x800 (.imm32 15#4 0x100#32 t)) = true ∧
      ([0x3FE#32, 0xC00#32, 0x801#32].any fun t =>
        accepted 0x800 (.adr 1#4 t) || accepted 0x800 (.imm32 15#4 0x100#32 t)) = false := by decide
/-- BAL, and `blk`, whose BAL stands 2 bytes on: -2048 and 2047 instructions, -2049 and 2048. -/
theorem test_witness_asm_bal_blk :
    ([0x1000#32, 0x2FFE#32].all fun t => accepted 0x2000 (.bal t) && accepted 0x1FFE (.blk t)) = true ∧
      ([0xFFE#32, 0x3000#32].any fun t => accepted 0x2000 (.bal t) || accepted 0x1FFE (.blk t)) = false := by decide
/-- Registers: r1 and r15 where r0 is rejected. -/
theorem test_witness_asm_registers :
    ([1#4, 15#4].all fun r => accepted 0 (.and r 0#4 0#4) && accepted 0 (.ldw r r) && accepted 0 (.stw r r) &&
      accepted 0 (.mul r r r) && accepted 0 (.psh [r]) && accepted 0 (.pop [r]) && accepted 0 (.mov r 0#4)) = true ∧
    (accepted 0 (.and 0#4 1#4 1#4) || accepted 0 (.ldw 1#4 0#4) || accepted 0 (.stw 0#4 1#4) ||
      accepted 0 (.mul 1#4 1#4 0#4) || accepted 0 (.mul 1#4 2#4 1#4) || accepted 0 (.psh [0#4]) ||
      accepted 0 (.pop [0#4]) || accepted 0 (.psh []) || accepted 0 (.mov 0#4 1#4)) = false := by decide

/-! Witnesses: a state and operands that meet the hypotheses of each obligation that has any, named after it. Where an
obligation has several clauses, there is one for each, at the ends of its range. -/

/-- Parameters with these policies and the memory 0x000 to 0x202, so that a word at 0x200 lacks its last byte. -/
def edgeCfg (data : DataAlign) (fa : FetchAlign) (smc : SmcPolicy) (mz : MemRaZero) : Config :=
  { Config.default with
    regions := [⟨0, 0x203⟩], dataAlign := data, fetchAlign := fa, smc := smc, memRaZero := mz }

/-- The four bytes of a test word. -/
def wordAt (a : Nat) : List (Nat × List Nat) := [(a, [0x44, 0x33, 0x22, 0x11])]

theorem test_witness_DecodingAnEncodedInstruction :
    wellFormed .default (.stw 1#4 0#4) = true ∧ wellFormed .default (.bne 14#4 15#4 0x40#7) = true ∧
      wellFormed .default (.ext2 1#4) = true := by decide
theorem test_witness_EncodingADecodedWord : decode .default 0x0080#16 = .ok (.ext1 0#4) := by decide
/-- The two columns of R80 meet here: SLI with both a zero source and a zero immediate is STW with ra = r0. -/
theorem test_witness_AViolatedConstraint :
    Config.default.condCodes = .eqNeLt ∧ Config.default.lPolarity = .oneLoads ∧
      Config.default.sPolarity = .zeroIsFirst ∧
      decode .default (encodeWord .default (.inc 1#4 0#5)) = .ok (.stw 1#4 0#4) ∧
      decode .default (encodeWord .default (.sli 15#4 0#4 31#5)) = .ok (.inc 15#4 31#5) ∧
      decode .default (encodeWord .default (.sli 1#4 0#4 0#5)) = .ok (.stw 1#4 0#4) ∧
      decode .default (encodeWord .default (.mul 0#4 1#4)) = .ok (.ext2 1#4) ∧
      decode .default (encodeWord .default (.mul 0#4 0#4)) = .ok (.ext1 0#4) := by decide
theorem test_witness_ExtIsTheWords :
    decode .default 0x0F80#16 = .ok (.ext1 15#4) ∧ decode .default 0x1080#16 = .ok (.ext2 1#4) ∧
      decode .default 0x1180#16 = .ok (.mul 1#4 1#4) := by decide
/-- The hypotheses `rd ≠ 0`, `ra ≠ 0`, `imm ≠ 0` of the encoding clauses, at the least and the greatest value. -/
theorem test_witness_EncodingClauses :
    (1#4 : Reg) ≠ 0#4 ∧ (15#4 : Reg) ≠ 0#4 ∧ (1#5 : BitVec 5) ≠ 0#5 ∧ (31#5 : BitVec 5) ≠ 0#5 ∧
      decode .default (15#4 ++ 15#4 ++ 1#3 ++ 0#1 ++ 15#4 : BitVec (4 + 4 + 3 + 1 + 4)) =
        .ok (.and 15#4 15#4 15#4) ∧
      decode .default (31#5 ++ 15#4 ++ 1#1 ++ 1#2 ++ 15#4 : BitVec (5 + 4 + 1 + 2 + 4)) =
        .ok (.sri 15#4 15#4 31#5) := by decide
/-- The end of R102: an odd target under `fault`, an unmapped even target. -/
theorem test_witness_BranchIndirect :
    (let s := mkState [(5, 0x201), (6, 0x400)] []
     s.cfg.fetchAlign = .fault ∧ (s.reg 5#4).toNat % 2 = 1 ∧ (s.reg 6#4).toNat % 2 = 0 ∧
       isMapped s.cfg (s.reg 6#4) = false) := by decide
theorem test_witness_TheDefaultCodesAndPairs :
    Config.default.condCodes = .eqNeLt ∧ Config.default.pairMap = .evenOdd := by decide

/-- LDW and STW with ra = r0 under `refuse`. -/
theorem test_witness_RaRefused :
    ¬ RaAllowed (edgeCfg .fault .fault .fault .refuse) 0#4 ∧ RaAllowed (edgeCfg .fault .fault .fault .refuse) 1#4 ∧
      RaAllowed (edgeCfg .fault .fault .fault .execute) 0#4 := by
  unfold RaAllowed; decide
theorem test_witness_Misaligned :
    ¬ AlignAllowed (edgeCfg .fault .fault .fault .execute) 0x201#32 ∧
      ¬ AlignAllowed (edgeCfg .fault .fault .fault .execute) 0x203#32 ∧
      AlignAllowed (edgeCfg .fault .fault .fault .execute) 0x200#32 ∧
      AlignAllowed (edgeCfg .split .fault .fault .execute) 0x201#32 := by
  unfold AlignAllowed; decide
/-- The first unmapped byte of a word is its last, and its first; of a half word likewise. -/
theorem test_witness_FirstUnmapped :
    FirstUnmapped (edgeCfg .fault .fault .fault .execute) 0x200#32 4 3 ∧
      FirstUnmapped (edgeCfg .fault .fault .fault .execute) 0x204#32 4 0 ∧
      FirstUnmapped (edgeCfg .fault .fault .fault .execute) 0x202#32 2 1 ∧
      FirstUnmapped (edgeCfg .fault .fault .fault .execute) 0x204#32 2 0 := by
  unfold FirstUnmapped; decide

/-- An LDW that completes, at an aligned address and, under `split`, across the top of the address space. -/
theorem test_witness_LoadWordReads :
    (let s := mkState [(2, 0x200)] (wordAt 0x200)
     RaAllowed s.cfg 2#4 ∧ AlignAllowed s.cfg (s.reg 2#4) ∧ AllMapped s.cfg (s.reg 2#4) 4 ∧
       HoldsBytes s (s.reg 2#4) 0x44#8 0x33#8 0x22#8 0x11#8) ∧
    (let s := mkState [(2, 0xFFFFFFFE)] (wordAt 0xFFFFFFFE) 0x100 { Config.default with dataAlign := .split }
     RaAllowed s.cfg 2#4 ∧ AlignAllowed s.cfg (s.reg 2#4) ∧ AllMapped s.cfg (s.reg 2#4) 4 ∧
       HoldsBytes s (s.reg 2#4) 0x44#8 0x33#8 0x22#8 0x11#8) := by
  unfold RaAllowed AlignAllowed AllMapped HoldsBytes; decide
/-- The first byte without a value is the first of the word, and the last. -/
theorem test_witness_LoadOfAByteWithNoValue :
    (let s := mkState [(2, 0x200)] []
     RaAllowed s.cfg 2#4 ∧ AlignAllowed s.cfg (s.reg 2#4) ∧ AllMapped s.cfg (s.reg 2#4) 4 ∧
       s.byte? (wordByteAddr (s.reg 2#4) 0) = none) ∧
    (let s := mkState [(2, 0x200)] [(0x200, [1, 2, 3])]
     RaAllowed s.cfg 2#4 ∧ AlignAllowed s.cfg (s.reg 2#4) ∧ AllMapped s.cfg (s.reg 2#4) 4 ∧
       s.byte? (wordByteAddr (s.reg 2#4) 3) = none ∧
       ∀ j < 3, (s.byte? (wordByteAddr (s.reg 2#4) j)).isSome = true) := by
  unfold RaAllowed AlignAllowed AllMapped; decide
theorem test_witness_StoreWordWrites :
    (let s := mkState [(1, 0xAABBCCDD), (2, 0x3FC)] []
     RaAllowed s.cfg 1#4 ∧ AlignAllowed s.cfg (s.reg 2#4) ∧ AllMapped s.cfg (s.reg 2#4) 4) ∧
    (let s := mkState [(2, 0xFFFFFFFF)] [] 0x100 { Config.default with dataAlign := .split }
     RaAllowed s.cfg 0#4 ∧ AlignAllowed s.cfg (s.reg 2#4) ∧ AllMapped s.cfg (s.reg 2#4) 4) := by
  unfold RaAllowed AlignAllowed AllMapped; decide
theorem test_witness_ReadsAssemble :
    (let s := mkState [] (wordAt 0x3FC)
     AllMapped s.cfg 0x3FC#32 4 ∧ HoldsBytes s 0x3FC#32 0x44#8 0x33#8 0x22#8 0x11#8 ∧ AllMapped s.cfg 0x3FE#32 2 ∧
       s.byte? 0x3FE#32 = some 0x22#8 ∧ s.byte? (0x3FE#32 + 1#32) = some 0x11#8) := by
  unfold AllMapped HoldsBytes; decide
theorem test_witness_AStoredWordReadsBack :
    ∃ t, memWriteWord (mkState [] []) 0x3FC#32 0xAABBCCDD#32 = .ok t := ⟨_, rfl⟩

theorem test_witness_PlatformExtensions :
    (let s := mkState [] [(0x100, [0xC3, 0x12])]
     fetch s = .ok 0x12C3#16 ∧ decode s.cfg 0x12C3#16 = .ok (.add 3#4 1#4 2#4) ∧
       isPlatformSpace (.add 3#4 1#4 2#4) = false) := by decide
/-- An even pc under `fault`; an odd pc under `ignore_bit0`, on bytes an STW wrote, under `coherent`. -/
theorem test_witness_AStepRunsTheDecodedInstruction :
    (let s := mkState [] [(0x100, [0xC3, 0x12])]
     s.pc.toNat % 2 = 0 ∧ AllMapped s.cfg (fetchAddr s) 2 ∧ (fetchAddr s).toNat ∉ s.written ∧
       (fetchAddr s + 1#32).toNat ∉ s.written ∧ s.byte? (fetchAddr s) = some 0xC3#8 ∧
       s.byte? (fetchAddr s + 1#32) = some 0x12#8 ∧
       decode s.cfg (joinHalf s.cfg.endian 0xC3#8 0x12#8) = .ok (.add 3#4 1#4 2#4)) ∧
    (let s := { mkState [] [(0x100, [0xC3, 0x12])] 0x101 (edgeCfg .fault .ignoreBit0 .coherent .execute) with
       written := [0x100] }
     s.cfg.fetchAlign = .ignoreBit0 ∧ AllMapped s.cfg (fetchAddr s) 2 ∧ s.cfg.smc = .coherent ∧
       s.byte? (fetchAddr s) = some 0xC3#8 ∧ s.byte? (fetchAddr s + 1#32) = some 0x12#8 ∧
       decode s.cfg (joinHalf s.cfg.endian 0xC3#8 0x12#8) = .ok (.add 3#4 1#4 2#4)) := by
  unfold AllMapped; decide
/-- Each fetch fault: an odd pc; the second byte unmapped, and the first; either byte written. -/
theorem test_witness_FetchFaults :
    (let s := mkState [] [] 0x101
     s.cfg.fetchAlign = .fault ∧ s.pc.toNat % 2 = 1) ∧
    (let s := mkState [] [] 0x202 (edgeCfg .fault .fault .fault .execute)
     s.pc.toNat % 2 = 0 ∧ FirstUnmapped s.cfg (fetchAddr s) 2 1) ∧
    (let s := mkState [] [] 0x205 (edgeCfg .fault .ignoreBit0 .fault .execute)
     s.cfg.fetchAlign = .ignoreBit0 ∧ FirstUnmapped s.cfg (fetchAddr s) 2 0) ∧
    (let s := { mkState [] [] with written := [0x101] }
     s.pc.toNat % 2 = 0 ∧ AllMapped s.cfg (fetchAddr s) 2 ∧ s.cfg.smc = .fault ∧
       (fetchAddr s + 1#32).toNat ∈ s.written) ∧
    (let s := { mkState [] [] with written := [0x100] }
     s.pc.toNat % 2 = 0 ∧ AllMapped s.cfg (fetchAddr s) 2 ∧ s.cfg.smc = .fault ∧
       (fetchAddr s).toNat ∈ s.written) := by
  unfold AllMapped FirstUnmapped; decide

/-- A state whose next instruction is `stw [r2], r1`. -/
def storing : State := mkState [(1, 0xAABBCCDD), (2, 0x200)] [(0x100, [0x92, 0x00])]

theorem test_witness_EveryStepKeepsTheInvariant :
    MachineInv storing ∧ ∃ t, step storing = .next t ∧ t.written = [0x200, 0x201, 0x202, 0x203] :=
  ⟨⟨by decide, by decide, by decide⟩, _, rfl, rfl⟩
theorem test_witness_OnlyTheDestinationRegisterChanges :
    (∃ t, exec (.add 3#4 1#4 2#4) storing = .next t) ∧ destReg (.add 3#4 1#4 2#4) ≠ some 4#4 :=
  ⟨⟨_, rfl⟩, by decide⟩
theorem test_witness_ATermThatWritesRegisterZero :
    destReg (.add 0#4 1#4 2#4) = some 0#4 ∧ ∃ t, exec (.add 0#4 1#4 2#4) storing = .next t :=
  ⟨rfl, _, rfl⟩
theorem test_witness_ARegisterNotNamedDoesNotMatter :
    (4#4 : Reg) ∉ namedRegs (.stw 2#4 1#4) ∧ ∃ t, exec (.stw 2#4 1#4) storing = .next t :=
  ⟨by decide, _, rfl⟩
theorem test_witness_OnlyStoresChangeMemory :
    (∃ t, exec (.add 3#4 1#4 2#4) storing = .next t) ∧ ∀ rd ra, Instr.add 3#4 1#4 2#4 ≠ .stw rd ra :=
  ⟨⟨_, rfl⟩, fun _ _ h => by cases h⟩
theorem test_witness_MemoryMattersOnlyToLoadsAndStores :
    reachesMemory (.add 3#4 1#4 2#4) = false ∧ ∃ t, exec (.add 3#4 1#4 2#4) storing = .next t := ⟨rfl, _, rfl⟩
theorem test_witness_NoStepChangesAParameter : ∃ t, step storing = .next t := ⟨_, rfl⟩
theorem test_witness_OnlyBinCanMakeThePcOdd :
    (mkState [(5, 0x201)] [(0x100, [0x40, 0x05])]).pc.toNat % 2 = 0 ∧
      ∃ t, step (mkState [(5, 0x201)] [(0x100, [0x40, 0x05])]) = .next t ∧ t.pc.toNat % 2 = 1 :=
  ⟨rfl, _, rfl, rfl⟩
theorem test_witness_WrittenBytesAreThoseOfTheStores :
    fetch storing = .ok 0x0092#16 ∧ decode storing.cfg 0x0092#16 = .ok (.stw 2#4 1#4) ∧
      ∃ t, step storing = .next t ∧ 0x203 ∈ t.written :=
  ⟨by decide, by decide, _, rfl, by decide⟩
theorem test_witness_TheImageIsPlacedAtAddressZero :
    ([0x01#8, 0x00#8] : List Byte).length ≤ 2 ^ 32 ∧
      (bootState (Vector.replicate 15 7#32) .default [0x01#8, 0x00#8]).byte? 1#32 = some 0x00#8 := by decide
theorem test_witness_AHaltedMachineStaysAsItIs : isHalted (mkState [] [(0x100, [0x00, 0x00])]) = true := by decide
/-- A run that faults after one step, one that halts, one that has steps left to do. -/
theorem test_witness_ARunStopsWhereItsOutcomeSays :
    (∃ u, runFor 2 (mkState [] [(0x100, [0x01, 0x00, 0xC0, 0x03])]) = .faulted (.sysUndefined 3#4) u) ∧
      (∃ u, runFor 1 (mkState [] [(0x100, [0x01, 0x00, 0x00, 0x00])]) = .halted u) ∧
      (∃ u, runFor 0 (mkState [] [(0x100, [0x01, 0x00])]) = .stillRunning u) :=
  ⟨⟨_, rfl⟩, ⟨_, rfl⟩, ⟨_, rfl⟩⟩
/-- The two ends of the reach of BAL, and one beyond each. -/
theorem test_witness_AnOffsetField :
    offsetField 12 0x1000#32 0#32 = .ok 0x800#12 ∧ offsetField 12 0#32 0xFFE#32 = .ok 0x7FF#12 ∧
      offsetField 12 0x1002#32 0#32 = .error .target ∧ offsetField 12 0#32 0x1000#32 = .error .target ∧
      offsetField 12 0#32 1#32 = .error .target := by decide
theorem test_witness_AssembledLines :
    assembleLine .default 0#32 (.imm32 14#4 0x100#32 0x20#32) = .ok [0x043E#16, 0x075E#16] ∧
      assembleLine .default 0x20#32 (.word 0x100#32) = .ok [0x0100#16, 0x0000#16] := by decide
theorem test_witness_RetRstAndMov :
    assembleLine .default 0#32 (.mov 10#4 12#4) = .ok [0x0CCA#16] ∧
      assembleLine .default 0#32 (.neg 2#4 2#4) = .ok [0x02E2#16] := by decide
theorem test_witness_Blk : lineInstrs (mkState [] []).pc (.blk 0x80#32) = .ok [.adr 15#4 2#10, .bal 0xFBF#12] := by
  decide
theorem test_witness_Imm32 :
    (let s := mkState [] (wordAt 0x200)
     lineInstrs s.pc (.imm32 1#4 0x11223344#32 0x200#32) = .ok [.adr 1#4 0x80#10, .ldw 1#4 1#4] ∧ AlignAllowed s.cfg 0x200#32 ∧
       memReadWord s 0x200#32 = .ok 0x11223344#32) := by
  unfold AlignAllowed; decide
/-- The operands next to each end of the two ranges, and an accepted line of each form. -/
theorem test_witness_TheImmMnemonic :
    immLine 1#4 (-16) 0x200#32 = .ok (.imm 1#4 (-16)) ∧ immLine 1#4 15 0x200#32 = .ok (.imm 1#4 15) ∧
    immLine 1#4 (-17) 0x200#32 = .ok (.imm32 1#4 0xFFFFFFEF#32 0x200#32) ∧
    immLine 1#4 16 0x200#32 = .ok (.imm32 1#4 16#32 0x200#32) ∧
    immLine 1#4 (-2147483648) 0x200#32 = .ok (.imm32 1#4 0x80000000#32 0x200#32) ∧
    immLine 1#4 4294967295 0x200#32 = .ok (.imm32 1#4 0xFFFFFFFF#32 0x200#32) ∧
    immLine 1#4 (-2147483649) 0x200#32 = .error .immediate ∧ immLine 1#4 4294967296 0x200#32 = .error .immediate ∧
    literalOf (.imm 1#4 15) = none ∧
    (let s := mkState [] []
     lineInstrs s.pc (.imm 1#4 15) = .ok [.imm 1#4 15#5] ∧
       lineInstrs s.pc (.imm32 1#4 16#32 0x200#32) = .ok [.adr 1#4 0x80#10, .ldw 1#4 1#4] ∧
       AlignAllowed s.cfg 0x200#32 ∧ AllMapped s.cfg 0x200#32 4) := by
  unfold AlignAllowed AllMapped; decide
/-- `psh lr` and `psh sp`, with sp at the end of memory and, under the default, 0 for the top of the address space. -/
theorem test_witness_PushThenPopRestores :
    (let s := mkState [(14, 0x400)] []
     RaAllowed s.cfg 15#4 ∧ AlignAllowed s.cfg (s.reg 14#4 - 4#32) ∧ AllMapped s.cfg (s.reg 14#4 - 4#32) 4) ∧
    (let s := mkState [] [] 0x100 Config.default
     RaAllowed s.cfg 14#4 ∧ AlignAllowed s.cfg (s.reg 14#4 - 4#32) ∧ AllMapped s.cfg (s.reg 14#4 - 4#32) 4) := by
  unfold RaAllowed AlignAllowed AllMapped; decide
theorem test_witness_RawDataReadsBack :
    AllMapped vecCfg 0x3FC#32 4 ∧ AllMapped vecCfg 0x3FE#32 2 := by
  unfold AllMapped; decide

end Sys2Proof.Tests
end

/-! PROOFS about the registers (spec/10_state.md): r0 as a source, and the names of the registers. -/

namespace Sys2Proof.Proofs.State

open Sys2Proof Sys2Proof.Machine

/-! Which instructions can be encoded. -/

/-- No reason is found exactly when no flag of the list is set. -/
theorem firstIll_eq_none_iff {checks : List (Bool × IllFormed)} :
    firstIll checks = none ↔ ∀ c ∈ checks, c.1 = false := by
  simp [firstIll]

/-- An instruction whose only constraint is on its destination is well-formed exactly when that is not r0 (R80). -/
theorem wellFormed_iff_of_zeroDest {cfg : Config} {i : Instr} {rd : Reg}
    (h : illFormed cfg i = firstIll [(rd == 0#4, .zeroDest)]) : wellFormed cfg i = true ↔ rd ≠ 0#4 := by
  rw [wellFormed, h, Option.isNone_iff_eq_none, firstIll_eq_none_iff]
  simp

@[simp] theorem wellFormed_add_iff {cfg : Config} {rd ra rb : Reg} :
    wellFormed cfg (.add rd ra rb) = true ↔ rd ≠ 0#4 :=
  wellFormed_iff_of_zeroDest rfl

@[simp] theorem wellFormed_sub_iff {cfg : Config} {rd ra rb : Reg} :
    wellFormed cfg (.sub rd ra rb) = true ↔ rd ≠ 0#4 :=
  wellFormed_iff_of_zeroDest rfl

@[simp] theorem wellFormed_bin (cfg : Config) (ra : Reg) : wellFormed cfg (.bin ra) = true := rfl

/-- Settles O33: r0 is hardwired (`reg_zero`), and the constraints of ADD, SUB and BIN do not look at their source. -/
theorem registerZeroReadsZero : Obligations.RegisterZeroReadsZero :=
  ⟨reg_zero, fun cfg _ _ hrd =>
    ⟨wellFormed_add_iff.mpr hrd, wellFormed_sub_iff.mpr hrd, wellFormed_bin cfg 0#4⟩⟩

/-! The names of the registers (R23). -/

/-- No name stands twice in the table. -/
theorem registerNames_nodup_names : (registerNames.map Prod.fst).Nodup := by decide

/-- In a list whose keys are distinct, searching for a key finds exactly the entry that has it. -/
theorem find?_key_eq_some_iff_mem {l : List (String × Reg)} (hl : (l.map Prod.fst).Nodup) {name : String} {r : Reg} :
    (l.find? (·.1 == name)).map (·.2) = some r ↔ (name, r) ∈ l := by
  induction l with
  | nil => simp
  | cons e rest ih =>
    obtain ⟨key, reg⟩ := e
    obtain ⟨hkey, hrest⟩ := List.nodup_cons.mp hl
    by_cases hk : key = name
    · subst hk
      have hnot : (key, r) ∉ rest := fun hmem => hkey (List.mem_map.mpr ⟨_, hmem, rfl⟩)
      simp [hnot, eq_comm]
    · simp [hk, Ne.symm hk, ← ih hrest]

/-- A name stands for the register of its entry in the table, and for no other. -/
theorem registerNamed_eq_some_iff_mem {name : String} {r : Reg} :
    registerNamed name = some r ↔ (name, r) ∈ registerNames :=
  find?_key_eq_some_iff_mem registerNames_nodup_names

/-- Settles O47: every line of R23's table is an entry of the model's, and an entry decides its name. -/
theorem registerNamesAreThoseOfTheTable : Obligations.RegisterNamesAreThoseOfTheTable := by
  unfold Obligations.RegisterNamesAreThoseOfTheTable
  simp only [beq_iff_eq, List.all_eq_true, registerNamed_eq_some_iff_mem]
  decide

end Sys2Proof.Proofs.State

/-! PROOFS about memory (spec/20_memory.md): what the instructions that do not reach it make of it. -/

namespace Sys2Proof.Proofs.Memory

open Sys2Proof Sys2Proof.Machine

/-! A state with another memory: registers, pc and parameters are the same, and every operation over them commutes
with the change. -/

/-- `s` with the cells `m` as its memory and the addresses `l` as those STW has written. -/
def withMemory (m : Memory) (l : List Nat) (s : State) : State :=
  { s with mem := m, written := l }

section

variable (m : Memory) (l : List Nat) (s : State)

@[simp] theorem withMemory_reg (r : Reg) : (withMemory m l s).reg r = s.reg r := rfl
@[simp] theorem withMemory_pc : (withMemory m l s).pc = s.pc := rfl

@[simp] theorem setPc_withMemory (a : Word) : (withMemory m l s).setPc a = withMemory m l (s.setPc a) := rfl

@[simp] theorem setReg_withMemory (r : Reg) (v : Word) :
    (withMemory m l s).setReg r v = withMemory m l (s.setReg r v) := by
  unfold State.setReg
  split <;> rfl

@[simp] theorem advance_withMemory : (withMemory m l s).advance = withMemory m l s.advance := rfl

@[simp] theorem writeAndAdvance_withMemory (rd : Reg) (v : Word) :
    (withMemory m l s).writeAndAdvance rd v = withMemory m l (s.writeAndAdvance rd v) := by
  simp [State.writeAndAdvance]

@[simp] theorem branchOn_withMemory (c : Cond) (ra rb : Reg) (off : BitVec 7) :
    branchOn c ra rb off (withMemory m l s) = withMemory m l (branchOn c ra rb off s) := by
  unfold branchOn
  by_cases holds : condHolds c (s.reg ra) (s.reg rb) <;> simp [holds]

end

/-- A change of memory passes through an instruction that does not reach it. Such an instruction stops, sets pc, or
writes one register and advances; what it sets and writes it computes from registers, pc and parameters. -/
theorem exec_withMemory {i : Instr} {s t : State} (m : Memory) (l : List Nat) (hi : reachesMemory i = false)
    (h : exec i s = .next t) : exec i (withMemory m l s) = .next (withMemory m l t) := by
  cases i with
  | ldw | stw => cases hi
  | ext1 | ext2 | sys => cases h
  | bal | bin =>
    cases h
    exact congrArg _ (setPc_withMemory m l s _)
  | beq | bne | blt =>
    cases h
    exact congrArg _ (branchOn_withMemory m l s _ _ _ _)
  | mul | imm | adr | and | orr | xor | shl | shr | add | sub | inc | dec | sli | sri =>
    cases h
    exact congrArg _ (writeAndAdvance_withMemory m l s _ _)

/-- Settles O38: it is `exec_withMemory`. -/
theorem memoryMattersOnlyToLoadsAndStores : Obligations.MemoryMattersOnlyToLoadsAndStores :=
  fun _ _ _ m l hi h => exec_withMemory m l hi h

end Sys2Proof.Proofs.Memory

/-! PROOFS about the decoder (spec/30_encoding.md R62): what the rows of the precedence table exclude of each other,
and the two formats whose low four bits are a destination register. -/

namespace Sys2Proof.Proofs.Decode

open Sys2Proof

/-! Two rows. The constant bits of one may include those of another, or contradict them. -/

/-- The constant bits of `q` are among those of `r`. -/
def refines (r q : Row) : Bool :=
  rowMask r &&& rowMask q == rowMask q && rowBits r &&& rowMask q == rowBits q

/-- A constant bit of `r` is the opposite constant in `q`. -/
def conflicts (r q : Row) : Bool :=
  rowBits r &&& rowMask q != rowBits q &&& rowMask r

theorem rowMatches_of_refines {r q : Row} {w : Half} (hrq : refines r q = true) (hr : rowMatches r w = true) :
    rowMatches q w = true := by
  simp only [refines, Bool.and_eq_true, beq_iff_eq] at hrq
  obtain ⟨hmask, hbits⟩ := hrq
  rw [rowMatches, beq_iff_eq] at *
  rw [← hmask, ← BitVec.and_assoc, hr, hbits]

theorem rowMatches_eq_false_of_conflicts {r q : Row} {w : Half} (hrq : conflicts r q = true)
    (hr : rowMatches r w = true) : rowMatches q w = false := by
  rw [Bool.eq_false_iff]
  intro hq
  rw [rowMatches, beq_iff_eq] at hr hq
  refine bne_iff_ne.mp hrq ?_
  rw [← hr, ← hq, BitVec.and_assoc, BitVec.and_assoc, BitVec.and_comm (rowMask r)]

/-! The row that decides a word. -/

theorem decode_eq_ok_of_rowOf {cfg : Config} {w : Half} {r : Row} {i : Instr} (hr : rowOf w = some r)
    (hi : readRow cfg r w = some i) : decode cfg w = .ok i := by
  simp [decode, hr, hi]

/-- W[3:0] is zero in every row from EXT to BCC, so a word in which it is not is decided by the other six. -/
theorem rowOf_of_low_ne_zero {w : Half} (hlow : w.extractLsb' 0 4 ≠ 0#4) :
    rowOf w = [Row.bal, .adr, .alu, .mem, .inc, .shi].find? (rowMatches · w) := by
  have hno (r : Row) (hr : refines r .bcc = true) : rowMatches r w = false :=
    Bool.eq_false_iff.mpr fun h => hlow ((rowMatches_bcc w).mp (rowMatches_of_refines hr h))
  simp [rowOf, precedence, List.find?_cons, hno .ext1 rfl, hno .ext2 rfl, hno .mul rfl,
    hno .bin rfl, hno .sys rfl, hno .imm rfl, hno .bcc rfl]

/-! The ALU format (R73). -/

section

variable (op : BitVec 3) (rd ra rb : Reg)

@[simp] theorem aluWord_rd : (aluWord op rd ra rb).extractLsb' 0 4 = rd := by
  simp [aluWord, field_append_12_4]

@[simp] theorem aluWord_op : (aluWord op rd ra rb).extractLsb' 5 3 = op := by
  simp [aluWord, field_append_12_4, field_append_11_1, field_append_8_3]

@[simp] theorem aluWord_rb : (aluWord op rd ra rb).extractLsb' 8 4 = rb := by
  simp [aluWord, field_append_12_4, field_append_11_1, field_append_8_3, field_append_4_4]

@[simp] theorem aluWord_ra : (aluWord op rd ra rb).extractLsb' 12 4 = ra := by
  simp [aluWord, field_append_12_4, field_append_11_1, field_append_8_3, field_append_4_4]

end

/-- A field of a field is a field. -/
theorem field_field (w : Half) (lo n : Nat) {i k : Nat} (h : i + k ≤ n) :
    (w.extractLsb' lo n).extractLsb' i k = w.extractLsb' (lo + i) k := by
  ext j hj
  have hin : i + j < n := by omega
  simp [hin, Nat.add_assoc]

/-- BAL has W[7:5] zero, where the ALU format has its opcode. -/
theorem field_op_eq_zero_of_bal {w : Half} (h : rowMatches .bal w = true) : w.extractLsb' 5 3 = 0#3 := by
  rw [← field_field w 4 4 (i := 1) (by decide), (rowMatches_bal w).mp h]
  rfl

/-- Opcode 000 is no ALU instruction. -/
theorem op_ne_zero_of_aluInstr {op : BitVec 3} {rd ra rb : Reg} {i : Instr} (hi : aluInstr op rd ra rb = some i) :
    op ≠ 0#3 := by
  rintro rfl
  cases hi

theorem rowOf_aluWord {op : BitVec 3} {rd : Reg} (ra rb : Reg) (hop : op ≠ 0#3) (hrd : rd ≠ 0#4) :
    rowOf (aluWord op rd ra rb) = some .alu := by
  have halu := Laws.RowBits.aluWord_row op rd ra rb
  have hbal : rowMatches .bal (aluWord op rd ra rb) = false :=
    Bool.eq_false_iff.mpr fun h => hop (by simpa using field_op_eq_zero_of_bal h)
  have hadr := rowMatches_eq_false_of_conflicts (q := .adr) rfl halu
  rw [rowOf_of_low_ne_zero (by simpa using hrd)]
  simp [hbal, hadr, halu]

/-- A word of the ALU format with rd in r1 to r15 is the instruction of its opcode. -/
theorem decode_aluWord (cfg : Config) {op : BitVec 3} {rd ra rb : Reg} {i : Instr} (hrd : rd ≠ 0#4)
    (hi : aluInstr op rd ra rb = some i) : decode cfg (aluWord op rd ra rb) = .ok i :=
  decode_eq_ok_of_rowOf (rowOf_aluWord ra rb (op_ne_zero_of_aluInstr hi) hrd) (by simpa [readRow] using hi)

/-! The SHI format (R76). -/

/-- A word of the SHI format: imm5 ∥ ra ∥ S ∥ 01 ∥ rd. -/
def shiWord (b : BitVec 1) (rd ra : Reg) (n : BitVec 5) : Half :=
  n ++ ra ++ b ++ 1#2 ++ rd

/-- The encoder's words of SLI and SRI are of this format. -/
theorem encodeWord_sli (cfg : Config) (rd ra : Reg) (n : BitVec 5) :
    encodeWord cfg (.sli rd ra n) = shiWord (sBit cfg.sPolarity true) rd ra n := rfl

theorem encodeWord_sri (cfg : Config) (rd ra : Reg) (n : BitVec 5) :
    encodeWord cfg (.sri rd ra n) = shiWord (sBit cfg.sPolarity false) rd ra n := rfl

section

variable (b : BitVec 1) (rd ra : Reg) (n : BitVec 5)

@[simp] theorem shiWord_rd : (shiWord b rd ra n).extractLsb' 0 4 = rd := by
  simp [shiWord, field_append_12_4]

theorem shiWord_row : rowMatches .shi (shiWord b rd ra n) = true := by
  simp [shiWord, rowMatches_shi, field_append_12_4, field_append_10_2]

@[simp] theorem shiWord_s : (shiWord b rd ra n).extractLsb' 6 1 = b := by
  simp [shiWord, field_append_12_4, field_append_10_2, field_append_9_1]

@[simp] theorem shiWord_ra : (shiWord b rd ra n).extractLsb' 7 4 = ra := by
  simp [shiWord, field_append_12_4, field_append_10_2, field_append_9_1, field_append_5_4]

@[simp] theorem shiWord_imm : (shiWord b rd ra n).extractLsb' 11 5 = n := by
  simp [shiWord, field_append_12_4, field_append_10_2, field_append_9_1, field_append_5_4]

end

theorem rowOf_shiWord (b : BitVec 1) {rd ra : Reg} {n : BitVec 5} (hrd : rd ≠ 0#4) (hra : ra ≠ 0#4)
    (hn : n ≠ 0#5) : rowOf (shiWord b rd ra n) = some .shi := by
  have hshi := shiWord_row b rd ra n
  have hbal := rowMatches_eq_false_of_conflicts (q := .bal) rfl hshi
  have hadr := rowMatches_eq_false_of_conflicts (q := .adr) rfl hshi
  have halu := rowMatches_eq_false_of_conflicts (q := .alu) rfl hshi
  have hmem : rowMatches .mem (shiWord b rd ra n) = false :=
    Bool.eq_false_iff.mpr fun h => hn (by simpa using ((rowMatches_mem _).mp h).1)
  have hinc : rowMatches .inc (shiWord b rd ra n) = false :=
    Bool.eq_false_iff.mpr fun h => hra (by simpa using ((rowMatches_inc _).mp h).1)
  rw [rowOf_of_low_ne_zero (by simpa using hrd)]
  simp [hbal, hadr, halu, hmem, hinc, hshi]

/-- A word of the SHI format that violates no constraint is SLI or SRI, as its bit S says (R76). -/
theorem decode_shiWord (cfg : Config) (b : BitVec 1) {rd ra : Reg} {n : BitVec 5} (hrd : rd ≠ 0#4)
    (hra : ra ≠ 0#4) (hn : n ≠ 0#5) :
    decode cfg (shiWord b rd ra n) = .ok (if isFirst cfg.sPolarity b then .sli rd ra n else .sri rd ra n) :=
  decode_eq_ok_of_rowOf (rowOf_shiWord b hrd hra hn) (by simp [readRow])

end Sys2Proof.Proofs.Decode

/-! PROOFS about the integer instructions (spec/41_integer_alu.md): each writes one register and advances, and the
shifts move every bit by their count. -/

namespace Sys2Proof.Proofs.IntegerAlu

open Sys2Proof Sys2Proof.Machine Sys2Proof.Proofs.Decode

/-! What the instructions compute. -/

section

variable (s : State) (rd ra rb : Reg) (n : BitVec 5)

theorem exec_and : exec (.and rd ra rb) s = .next (s.writeAndAdvance rd (s.reg ra &&& s.reg rb)) := rfl

theorem exec_orr : exec (.orr rd ra rb) s = .next (s.writeAndAdvance rd (s.reg ra ||| s.reg rb)) := rfl

theorem exec_xor : exec (.xor rd ra rb) s = .next (s.writeAndAdvance rd (s.reg ra ^^^ s.reg rb)) := rfl

theorem exec_shl : exec (.shl rd ra rb) s =
    .next (s.writeAndAdvance rd (shiftLeft (s.reg ra) (shiftCount s.cfg.shiftAmount (s.reg rb)))) := rfl

theorem exec_shr : exec (.shr rd ra rb) s =
    .next (s.writeAndAdvance rd
      (shiftRight s.cfg.shrKind (s.reg ra) (shiftCount s.cfg.shiftAmount (s.reg rb)))) := rfl

theorem exec_sli : exec (.sli rd ra n) s =
    .next (s.writeAndAdvance rd (shiftLeft (s.reg ra) n.toNat)) := rfl

theorem exec_sri : exec (.sri rd ra n) s =
    .next (s.writeAndAdvance rd (shiftRight s.cfg.shrKind (s.reg ra) n.toNat)) := rfl

end

section

variable {i : Instr} {s : State} {rd : Reg} {v : Word}

/-- An instruction that computes one register completes, and changes that register and pc only. -/
theorem exists_onlyRegister (h : exec i s = .next (s.writeAndAdvance rd v)) :
    ∃ t, exec i s = .next t ∧ OnlyRegister s t rd v :=
  ⟨_, h, writeAndAdvance_onlyRegister s rd v⟩

/-- The same, with a property of what it computes. -/
theorem exists_onlyRegister_of {P : Word → Prop} (h : exec i s = .next (s.writeAndAdvance rd v)) (hv : P v) :
    ∃ t v, exec i s = .next t ∧ P v ∧ OnlyRegister s t rd v :=
  ⟨_, v, h, hv, writeAndAdvance_onlyRegister s rd v⟩

end

/-! The cases the model writes for a count of 32 or more are what the library's shifts give there. -/

theorem shiftLeft_eq (v : Word) (n : Nat) : shiftLeft v n = v <<< n := by
  unfold shiftLeft
  split
  case isTrue h => exact (BitVec.shiftLeft_eq_zero h).symm
  case isFalse => rfl

theorem shiftRight_logical_eq (v : Word) (n : Nat) : shiftRight .logical v n = v >>> n := by
  simp only [shiftRight]
  split
  case isTrue h => exact (BitVec.ushiftRight_eq_zero h).symm
  case isFalse => rfl

theorem shiftRight_arithmetic_eq (v : Word) (n : Nat) : shiftRight .arithmetic v n = v.sshiftRight n := by
  simp only [shiftRight]
  split
  case isTrue h =>
    apply BitVec.eq_of_getLsbD_eq
    intro i hi
    have hout : ¬ n + i < 32 := by omega
    have hin : ¬ 32 ≤ i := by omega
    rw [BitVec.getLsbD_sshiftRight, if_neg hout]
    cases v.msb with
    | true =>
      simp only [if_true, BitVec.getLsbD_allOnes, hi, hin, decide_true, decide_false, Bool.not_false, Bool.and_self]
    | false => simp
  case isFalse => rfl

/-! The shifts, bit by bit (R10, R114, R115). -/

theorem shiftedLeft_shiftLeft (v : Word) (n : Nat) : ShiftedLeft v n (shiftLeft v n) := by
  intro i hi
  simp only [shiftLeft_eq, BitVec.getLsbD_shiftLeft, hi, decide_true, Bool.true_and, ← decide_not, Nat.not_lt]

theorem shiftedRight_shiftRight (k : ShrKind) (v : Word) (n : Nat) : ShiftedRight k v n (shiftRight k v n) := by
  intro i hi
  cases k with
  | logical =>
    rw [shiftRight_logical_eq, BitVec.getLsbD_ushiftRight, Nat.add_comm n i]
    split
    case isTrue => rfl
    case isFalse h => exact BitVec.getLsbD_of_ge _ _ (Nat.not_lt.mp h)
  | arithmetic =>
    have hin : ¬ 32 ≤ i := by omega
    simp [shiftRight_arithmetic_eq, BitVec.getLsbD_sshiftRight, hin, Nat.add_comm n i, BitVec.msb_eq_getLsbD_last]

/-! The obligations. -/

/-- Settles O8: `decode_aluWord` for the encoding, `exists_onlyRegister` for result and frame. -/
theorem logicalInstructionsOperateBitByBit : Obligations.LogicalInstructionsOperateBitByBit :=
  ⟨fun cfg _ _ _ hrd => ⟨decode_aluWord cfg hrd rfl, decode_aluWord cfg hrd rfl, decode_aluWord cfg hrd rfl⟩,
   fun s rd ra rb _ =>
    ⟨exists_onlyRegister (exec_and s rd ra rb), exists_onlyRegister (exec_orr s rd ra rb),
     exists_onlyRegister (exec_xor s rd ra rb)⟩⟩

/-- Settles O9: `decode_aluWord` for the encoding; the count the statement writes out is `shiftCount`. -/
theorem variableShiftsMoveBitsByTheRegisterCount : Obligations.VariableShiftsMoveBitsByTheRegisterCount :=
  ⟨fun cfg _ _ _ hrd => ⟨decode_aluWord cfg hrd rfl, decode_aluWord cfg hrd rfl⟩,
   fun s rd ra rb _ =>
    ⟨exists_onlyRegister_of (exec_shl s rd ra rb) (shiftedLeft_shiftLeft _ _),
     exists_onlyRegister_of (exec_shr s rd ra rb) (shiftedRight_shiftRight _ _ _)⟩⟩

/-- Settles O12: S_POLARITY decides which value of the bit S `decode_shiWord` reads as SLI. -/
theorem immediateShiftsMoveBitsByTheImmediate : Obligations.ImmediateShiftsMoveBitsByTheImmediate := by
  refine ⟨fun cfg rd ra n hrd hra hn => ?_, fun s rd ra n _ =>
    ⟨exists_onlyRegister_of (exec_sli s rd ra n) (shiftedLeft_shiftLeft _ _),
     exists_onlyRegister_of (exec_sri s rd ra n) (shiftedRight_shiftRight _ _ _)⟩⟩
  have hdecode (b : BitVec 1) := decode_shiWord cfg b hrd hra hn
  cases hpol : cfg.sPolarity with
  | zeroIsFirst =>
    rw [hpol] at hdecode
    exact ⟨hdecode 0#1, hdecode 1#1⟩
  | oneIsFirst =>
    rw [hpol] at hdecode
    exact ⟨hdecode 1#1, hdecode 0#1⟩

end Sys2Proof.Proofs.IntegerAlu

/-! PROOFS about the pseudo-instructions (spec/46_pseudo.md) that stand for one real instruction: the word of the line
is that instruction's, and so is the effect. -/

namespace Sys2Proof.Proofs.Pseudo

open Sys2Proof Sys2Proof.Machine Sys2Proof.Proofs.State Sys2Proof.Proofs.IntegerAlu

/-! The real instructions behind `ret`, `rst` and `mov`. -/

section

variable (s : State) (rd ra rb : Reg)

theorem exec_bin : exec (.bin ra) s = .next (s.setPc (s.reg ra)) := rfl

theorem exec_add : exec (.add rd ra rb) s = .next (s.writeAndAdvance rd (s.reg ra + s.reg rb)) := rfl

/-- BIN completes, and changes pc only. -/
theorem exists_onlyPc_bin : ∃ t, exec (.bin ra) s = .next t ∧ OnlyPc s t (s.reg ra) :=
  ⟨_, exec_bin s ra, setPc_onlyPc s _⟩

/-- With r0 as its first source, ADD copies the second one (R21, R179). -/
theorem exec_add_zero : exec (.add rd Reg.zero ra) s = .next (s.writeAndAdvance rd (s.reg ra)) := by
  rw [exec_add, reg_zero, BitVec.zero_add]

end

/-- The fields of the ALU format (R73) at their places. -/
theorem aluWord_eq_or (op : BitVec 3) (rd ra rb : Reg) :
    aluWord op rd ra rb =
      ra.setWidth 16 <<< 12 ||| rb.setWidth 16 <<< 8 ||| op.setWidth 16 <<< 5 ||| rd.setWidth 16 := by
  rw [← BitVec.setWidth_eq (aluWord op rd ra rb)]
  simp only [aluWord, BitVec.setWidth_append_eq_shiftLeft_setWidth_or, BitVec.shiftLeft_or_distrib,
    ← BitVec.shiftLeft_add]
  simp

/-- The word of `mov` (R179): the fields of ADD with r0 as its first source. -/
theorem encodeWord_add_zero (cfg : Config) (rd ra : Reg) :
    encodeWord cfg (.add rd Reg.zero ra) = ra.setWidth 16 <<< 8 ||| 0x00C0#16 ||| rd.setWidth 16 := by
  rw [encodeWord, aluWord_eq_or]
  simp

/-! A line that stands for one instruction. -/

section

variable {i : Instr} {here : Word} {l : Line}

/-- Its words are that instruction's. -/
theorem assembleLine_of_single (cfg : Config) (hl : lineInstrs here l = .ok [i]) (hprose : proseForbids i = false)
    (hwf : wellFormed cfg i = true) (hdata : lineData cfg.endian l = []) :
    assembleLine cfg here l = .ok [encodeWord cfg i] :=
  assembleLine_eq_ok.mpr ⟨[i], hl, by simp [hprose], by simp [hwf], by simp [hdata]⟩

/-- Executing one instruction as a sequence is executing it. -/
theorem execSeq_singleton (i : Instr) (s : State) : execSeq [i] s = exec i s := by
  cases h : exec i s <;> simp [execSeq, h]

/-- What holds when the instruction completes holds when the line does. -/
theorem exists_execSeq_of_single {s : State} {P : State → Prop} (hl : lineInstrs here l = .ok [i])
    (h : ∃ t, exec i s = .next t ∧ P t) : ∃ is t, lineInstrs here l = .ok is ∧ execSeq is s = .next t ∧ P t := by
  obtain ⟨t, ht, hP⟩ := h
  exact ⟨[i], t, hl, by rw [execSeq_singleton, ht], hP⟩

end

/-! The obligation. -/

/-- Settles O52: `ret` and `rst` are BIN of lr and of r0, which reads 0; `mov` is ADD of r0 and its source. -/
theorem retRstAndMovDoAsTheirCompositions : Obligations.RetRstAndMovDoAsTheirCompositions := by
  refine ⟨fun cfg here => ⟨?retWord, ?rstWord, fun rd ra hrd => ?movWord⟩,
    fun here s => ⟨?ret, ?rst, fun rd ra _ => ?mov⟩⟩
  case retWord => exact assembleLine_of_single cfg rfl rfl (wellFormed_bin cfg Reg.lr) rfl
  case rstWord => exact assembleLine_of_single cfg rfl rfl (wellFormed_bin cfg Reg.zero) rfl
  case movWord =>
    rw [← encodeWord_add_zero cfg]
    exact assembleLine_of_single cfg rfl rfl (wellFormed_add_iff.mpr hrd) rfl
  case ret => exact exists_execSeq_of_single rfl (exists_onlyPc_bin s Reg.lr)
  case rst => exact exists_execSeq_of_single rfl (exists_onlyPc_bin s Reg.zero)
  case mov => exact exists_execSeq_of_single rfl (exists_onlyRegister (exec_add_zero s rd ra))

end Sys2Proof.Proofs.Pseudo

/-! PROOFS about the decoder and the encoder as a whole (spec/30_encoding.md R62, R63, R79 to R83). Each row decides the
words with certain fields; what it reads from such a word is well-formed and is encoded as the word, and the word of a
well-formed instruction is decided by the row of its format. -/

namespace Sys2Proof.Proofs.Encoding

open Sys2Proof Sys2Proof.Proofs.State Sys2Proof.Proofs.Decode Sys2Proof.Laws.RowBits

/-! Fields side by side. -/

/-- Two fields side by side are one field. -/
theorem fields_join {N : Nat} (w : BitVec N) (lo n : Nat) {m hi : Nat} {x : BitVec m} (hx : x = w.extractLsb' hi m)
    (h : hi = lo + n) : x ++ w.extractLsb' lo n = w.extractLsb' lo (m + n) := by
  rw [hx, BitVec.extractLsb'_append_extractLsb'_eq_extractLsb' h]

/-- A field has a value when its two parts have the parts of the value. -/
theorem field_eq_append_iff (w : Half) {lo n m hi : Nat} (x : BitVec m) (y : BitVec n) (h : hi = lo + n) :
    w.extractLsb' lo (m + n) = x ++ y ↔ w.extractLsb' hi m = x ∧ w.extractLsb' lo n = y := by
  constructor
  · intro hxy
    have hhi := field_field w lo (m + n) (i := n) (k := m) (by omega)
    have hlo := field_field w lo (m + n) (i := 0) (k := n) (by omega)
    rw [hxy, BitVec.extractLsb'_append_eq_left] at hhi
    rw [hxy, BitVec.extractLsb'_append_eq_right, Nat.add_zero] at hlo
    exact ⟨by rw [h, hhi], hlo.symm⟩
  · rintro ⟨rfl, rfl⟩
    exact (fields_join w lo n rfl h).symm

/-- The fields of a known field. -/
theorem field_of_field {w : Half} {lo n : Nat} {v : BitVec n} (hv : w.extractLsb' lo n = v) (i k : Nat)
    (h : i + k ≤ n) : w.extractLsb' (lo + i) k = v.extractLsb' i k := by
  rw [← hv, field_field w lo n h]

theorem low12_eq_ext2_iff {w : Half} :
    w.extractLsb' 0 12 = 0x080#12 ↔ w.extractLsb' 8 4 = 0#4 ∧ w.extractLsb' 0 8 = 0x80#8 :=
  field_eq_append_iff w 0#4 0x80#8 rfl

theorem bits7to4_eq_zero_iff_op {w : Half} :
    w.extractLsb' 4 4 = 0#4 ↔ w.extractLsb' 5 3 = 0#3 ∧ w.extractLsb' 4 1 = 0#1 :=
  field_eq_append_iff w 0#3 0#1 rfl

/-- W[6:0] as in IMM, BIN and SYS: bit 7 is left open. -/
theorem low7_eq_imm_iff {w : Half} :
    w.extractLsb' 0 7 = 0x40#7 ↔ w.extractLsb' 0 8 = 0x40#8 ∨ w.extractLsb' 0 8 = 0xC0#8 := by
  have h0 : w.extractLsb' 0 8 = 0x40#8 ↔ w.extractLsb' 7 1 = 0#1 ∧ w.extractLsb' 0 7 = 0x40#7 :=
    field_eq_append_iff w 0#1 0x40#7 rfl
  have h1 : w.extractLsb' 0 8 = 0xC0#8 ↔ w.extractLsb' 7 1 = 1#1 ∧ w.extractLsb' 0 7 = 0x40#7 :=
    field_eq_append_iff w 1#1 0x40#7 rfl
  rw [h0, h1]
  have := BitVec.eq_zero_or_eq_one (w.extractLsb' 7 1)
  tauto

/-- W[5:0] is zero in the words of BAL, of EXT and MUL, and of BIN, SYS and IMM with W[3:0] = 0, and in no others. -/
theorem low6_eq_zero_iff {w : Half} (hlow : w.extractLsb' 0 4 = 0#4) :
    w.extractLsb' 4 2 = 0#2 ↔
      w.extractLsb' 4 4 = 0#4 ∨ w.extractLsb' 0 8 = 0x80#8 ∨ w.extractLsb' 0 7 = 0x40#7 := by
  have hbyte (v : BitVec 4) : w.extractLsb' 0 8 = (v ++ 0#4 : BitVec (4 + 4)) ↔ w.extractLsb' 4 4 = v :=
    (field_eq_append_iff w v 0#4 rfl).trans (and_iff_left hlow)
  have hcode := field_field w 4 4 (i := 0) (k := 2) (by decide)
  rw [low7_eq_imm_iff, show (0x80#8) = (8#4 ++ 0#4 : BitVec (4 + 4)) from rfl,
    show (0x40#8) = (4#4 ++ 0#4 : BitVec (4 + 4)) from rfl,
    show (0xC0#8) = (12#4 ++ 0#4 : BitVec (4 + 4)) from rfl, hbyte, hbyte, hbyte, ← hcode]
  generalize w.extractLsb' 4 4 = v
  revert v
  decide

/-! The row that decides a word, without the order of precedence. -/

/-- The rows of higher precedence. -/
def rowsAbove (r : Row) : List Row :=
  precedence.takeWhile (· != r)

/-- The rows of higher precedence that a word with the constant bits of `r` may match, a row that refines another one
left out. -/
def rivals (r : Row) : List Row :=
  match r with
  | .bal | .ext1 | .bin | .sys => []
  | .ext2 => [.ext1]
  | .mul => [.ext1, .ext2]
  | .imm => [.bin, .sys]
  | .bcc => [.bal, .mul, .imm]
  | .adr | .mem => [.bcc]
  | .alu => [.bal, .bcc]
  | .inc => [.bcc, .mem]
  | .shi => [.bcc, .mem, .inc]

theorem mem_rowsAbove_of_mem_rivals {r q : Row} (hq : q ∈ rivals r) : q ∈ rowsAbove r := by
  revert q; cases r <;> decide

theorem conflicts_or_refines_rival {r q : Row} (hq : q ∈ rowsAbove r) :
    conflicts r q = true ∨ ∃ p ∈ rivals r, refines q p = true := by
  revert q; cases r <;> decide

theorem precedence_eq_append (r : Row) : ∃ below, precedence = rowsAbove r ++ r :: below := by
  cases r <;> exact ⟨_, rfl⟩

theorem not_mem_rowsAbove (r : Row) : r ∉ rowsAbove r := by
  cases r <;> decide

/-- The row that decides a word is the one it matches while it matches none of the row's rivals (R62). -/
theorem rowOf_eq_some_iff {w : Half} {r : Row} :
    rowOf w = some r ↔ rowMatches r w = true ∧ ∀ q ∈ rivals r, ¬ rowMatches q w = true := by
  obtain ⟨below, hsplit⟩ := precedence_eq_append r
  rw [rowOf, hsplit, List.find?_append]
  cases habove : (rowsAbove r).find? (rowMatches · w) with
  | some p =>
    have hp := List.mem_of_find?_eq_some habove
    have hne : p ≠ r := fun e => not_mem_rowsAbove r (e ▸ hp)
    have hmatch : rowMatches p w = true := List.find?_some (p := (rowMatches · w)) habove
    simp only [Option.some_or, Option.some.injEq, hne, false_iff, not_and, not_forall, not_not]
    intro hr
    obtain hconf | ⟨q, hq, href⟩ := conflicts_or_refines_rival hp
    · simp [rowMatches_eq_false_of_conflicts hconf hr] at hmatch
    · exact ⟨q, hq, rowMatches_of_refines href hmatch⟩
  | none =>
    have hrivals : ∀ q ∈ rivals r, ¬ rowMatches q w = true :=
      fun q hq => List.find?_eq_none.mp habove q (mem_rowsAbove_of_mem_rivals hq)
    simp only [Option.none_or, and_iff_left hrivals]
    constructor
    · exact List.find?_some (p := (rowMatches · w))
    · intro hr
      simp [hr]

/-- The fields of the words that a row decides: its constant bits, and what keeps the word from the rows above it (R62,
R80). -/
def RowFields (r : Row) (w : Half) : Prop :=
  match r with
  | .bal => w.extractLsb' 4 4 = 0#4
  | .ext1 => w.extractLsb' 12 4 = 0#4 ∧ w.extractLsb' 0 8 = 0x80#8
  | .ext2 => w.extractLsb' 12 4 ≠ 0#4 ∧ w.extractLsb' 8 4 = 0#4 ∧ w.extractLsb' 0 8 = 0x80#8
  | .mul => w.extractLsb' 12 4 ≠ 0#4 ∧ w.extractLsb' 8 4 ≠ 0#4 ∧ w.extractLsb' 0 8 = 0x80#8
  | .bin => w.extractLsb' 12 4 = 0#4 ∧ w.extractLsb' 0 8 = 0x40#8
  | .sys => w.extractLsb' 12 4 = 0#4 ∧ w.extractLsb' 0 8 = 0xC0#8
  | .imm => w.extractLsb' 12 4 ≠ 0#4 ∧ w.extractLsb' 0 7 = 0x40#7
  | .bcc => w.extractLsb' 4 2 ≠ 0#2 ∧ w.extractLsb' 0 4 = 0#4
  | .adr => w.extractLsb' 0 4 ≠ 0#4 ∧ w.extractLsb' 4 2 = 3#2
  | .alu => w.extractLsb' 0 4 ≠ 0#4 ∧ w.extractLsb' 5 3 ≠ 0#3 ∧ w.extractLsb' 4 1 = 0#1
  | .mem => w.extractLsb' 0 4 ≠ 0#4 ∧ w.extractLsb' 11 5 = 0#5 ∧ w.extractLsb' 4 2 = 1#2
  | .inc => w.extractLsb' 0 4 ≠ 0#4 ∧ w.extractLsb' 11 5 ≠ 0#5 ∧ w.extractLsb' 7 4 = 0#4 ∧ w.extractLsb' 4 2 = 1#2
  | .shi => w.extractLsb' 0 4 ≠ 0#4 ∧ w.extractLsb' 11 5 ≠ 0#5 ∧ w.extractLsb' 7 4 ≠ 0#4 ∧ w.extractLsb' 4 2 = 1#2

theorem rowOf_eq_some_iff_rowFields {w : Half} {r : Row} : rowOf w = some r ↔ RowFields r w := by
  rw [rowOf_eq_some_iff]
  cases r with
  | bal => simp [rivals, RowFields, rowMatches_bal]
  | ext1 => simp [rivals, RowFields, rowMatches_ext1]
  | bin => simp [rivals, RowFields, rowMatches_bin]
  | sys => simp [rivals, RowFields, rowMatches_sys]
  | ext2 =>
    simp only [rivals, List.forall_mem_cons, RowFields, rowMatches_ext1, rowMatches_ext2, low12_eq_ext2_iff]
    tauto
  | mul =>
    simp only [rivals, List.forall_mem_cons, RowFields, rowMatches_ext1, rowMatches_ext2,
      rowMatches_mul, low12_eq_ext2_iff]
    tauto
  | imm =>
    simp only [rivals, List.forall_mem_cons, RowFields, rowMatches_bin, rowMatches_sys,
      rowMatches_imm, low7_eq_imm_iff]
    tauto
  | bcc =>
    simp only [rivals, List.forall_mem_cons, RowFields, rowMatches_bal, rowMatches_mul,
      rowMatches_imm, rowMatches_bcc]
    have := @low6_eq_zero_iff w
    tauto
  | alu =>
    simp only [rivals, List.forall_mem_cons, RowFields, rowMatches_bal, rowMatches_bcc,
      rowMatches_alu, bits7to4_eq_zero_iff_op]
    tauto
  | adr =>
    simp only [rivals, List.forall_mem_cons, RowFields, rowMatches_adr, rowMatches_bcc]
    tauto
  | mem =>
    simp only [rivals, List.forall_mem_cons, RowFields, rowMatches_mem, rowMatches_bcc]
    tauto
  | inc =>
    simp only [rivals, List.forall_mem_cons, RowFields, rowMatches_mem, rowMatches_bcc,
      rowMatches_inc]
    tauto
  | shi =>
    simp only [rivals, List.forall_mem_cons, RowFields, rowMatches_mem, rowMatches_bcc,
      rowMatches_inc, rowMatches_shi]
    tauto

/-- Every word has a deciding row: bits 5 and 4 alone make it match ALU, ADR or SHI (R63). -/
theorem exists_rowOf (w : Half) : ∃ r, rowOf w = some r := by
  cases h : rowOf w with
  | some r => exact ⟨r, rfl⟩
  | none =>
    have hno (r : Row) (hr : r ∈ precedence) : ¬ rowMatches r w = true := List.find?_eq_none.mp h r hr
    have halu := hno .alu (by decide)
    have hadr := hno .adr (by decide)
    have hshi := hno .shi (by decide)
    rw [rowMatches_alu, ← field_field w 4 2 (i := 0) (by decide)] at halu
    rw [rowMatches_adr] at hadr
    rw [rowMatches_shi] at hshi
    exfalso
    revert halu hadr hshi
    generalize w.extractLsb' 4 2 = v
    revert v
    decide

/-! Which instructions can be encoded. -/

/-- What the operands of an instruction must be for it to have an encoding (R80, R83). -/
def HasEncoding (cfg : Config) (i : Instr) : Prop :=
  match i with
  | .bal _ | .ext1 _ | .bin _ | .sys _ => True
  | .ext2 n => n ≠ 0#4
  | .mul rz ra => rz ≠ 0#4 ∧ ra ≠ 0#4
  | .beq ra rb _ | .bne ra rb _ | .blt ra rb _ => ∃ p, pairRegs cfg.pairMap p = (ra, rb)
  | .imm rd _ | .adr rd _ | .ldw rd _ | .stw rd _ => rd ≠ 0#4
  | .and rd _ _ | .orr rd _ _ | .xor rd _ _ | .shl rd _ _ | .shr rd _ _ | .add rd _ _ | .sub rd _ _ => rd ≠ 0#4
  | .inc rz n | .dec rz n => rz ≠ 0#4 ∧ n ≠ 0#5
  | .sli rd ra n | .sri rd ra n => rd ≠ 0#4 ∧ ra ≠ 0#4 ∧ n ≠ 0#5

theorem isPair_iff {pm : PairMap} {ra rb : Reg} : isPair pm ra rb = true ↔ ∃ p, pairRegs pm p = (ra, rb) := by
  refine ⟨fun h => ⟨_, by simpa [isPair] using h⟩, ?_⟩
  rintro ⟨p, hp⟩
  simpa [hp] using isPair_pairRegs pm p

theorem wellFormed_iff_hasEncoding {cfg : Config} {i : Instr} : wellFormed cfg i = true ↔ HasEncoding cfg i := by
  rw [wellFormed, Option.isNone_iff_eq_none]
  cases i with
  | bal | ext1 | bin | sys => simp [illFormed, HasEncoding]
  | beq | bne | blt => simp [illFormed, HasEncoding, firstIll_eq_none_iff, isPair_iff]
  | _ => simp [illFormed, HasEncoding, firstIll_eq_none_iff]

/-! The words of the formats (R64 to R76) and their fields; those of the ALU and SHI formats stand in
`Sys2Proof.Proofs.Decode`. -/

/-- The fields of a word whose low byte decides its row: x ∥ y ∥ b, as in EXT, MUL, BIN and SYS. -/
def byteWord (x y : BitVec 4) (b : BitVec 8) : Half :=
  x ++ y ++ b

/-- A word of the IMM format (R70): rd ∥ imm ∥ 1000000. -/
def immWord (rd : Reg) (f : BitVec 5) : Half :=
  rd ++ f ++ 0x40#7

/-- A word of the BCC format (R71): pair ∥ off7 ∥ cond ∥ 0000. -/
def bccFormat (p : BitVec 3) (off : BitVec 7) (code : BitVec 2) : Half :=
  p ++ off ++ code ++ 0#4

section

variable (x y : BitVec 4) (b : BitVec 8)

@[simp] theorem byteWord_top : (byteWord x y b).extractLsb' 12 4 = x := by
  simp [byteWord, field_append_8_8, field_append_4_4]

@[simp] theorem byteWord_mid : (byteWord x y b).extractLsb' 8 4 = y := by
  simp [byteWord, field_append_8_8, field_append_4_4]

@[simp] theorem byteWord_byte : (byteWord x y b).extractLsb' 0 8 = b := by
  simp [byteWord, field_append_8_8]

theorem byteWord_of_fields {w : Half} (h : w.extractLsb' 0 8 = b) :
    byteWord (w.extractLsb' 12 4) (w.extractLsb' 8 4) b = w := by
  rw [byteWord, ← h]
  exact (fields_join w 0 8 (fields_join w 8 4 rfl rfl) rfl).trans BitVec.extractLsb'_eq_self

end

section

variable (rd : Reg) (f : BitVec 5)

@[simp] theorem immWord_rd : (immWord rd f).extractLsb' 12 4 = rd := by
  simp [immWord, field_append_9_7, field_append_4_5]

@[simp] theorem immWord_imm : (immWord rd f).extractLsb' 7 5 = f := by
  simp [immWord, field_append_9_7, field_append_4_5]

@[simp] theorem immWord_low : (immWord rd f).extractLsb' 0 7 = 0x40#7 := by
  simp [immWord, field_append_9_7]

theorem immWord_of_fields {w : Half} (h : w.extractLsb' 0 7 = 0x40#7) :
    immWord (w.extractLsb' 12 4) (w.extractLsb' 7 5) = w := by
  rw [immWord, ← h]
  exact (fields_join w 0 7 (fields_join w 7 5 rfl rfl) rfl).trans BitVec.extractLsb'_eq_self

end

section

variable (p : BitVec 3) (off : BitVec 7) (code : BitVec 2)

@[simp] theorem bccFormat_pair : (bccFormat p off code).extractLsb' 13 3 = p := by
  simp [bccFormat, field_append_12_4, field_append_10_2, field_append_3_7]

@[simp] theorem bccFormat_off : (bccFormat p off code).extractLsb' 6 7 = off := by
  simp [bccFormat, field_append_12_4, field_append_10_2, field_append_3_7]

@[simp] theorem bccFormat_code : (bccFormat p off code).extractLsb' 4 2 = code := by
  simp [bccFormat, field_append_12_4, field_append_10_2]

@[simp] theorem bccFormat_low : (bccFormat p off code).extractLsb' 0 4 = 0#4 := by
  simp [bccFormat, field_append_12_4]

theorem bccFormat_of_fields {w : Half} (h : w.extractLsb' 0 4 = 0#4) :
    bccFormat (w.extractLsb' 13 3) (w.extractLsb' 6 7) (w.extractLsb' 4 2) = w := by
  rw [bccFormat, ← h]
  exact (fields_join w 0 4 (fields_join w 4 2 (fields_join w 6 7 rfl rfl) rfl) rfl).trans BitVec.extractLsb'_eq_self

end

theorem balWord_of_fields {cfg : Config} {w : Half} (h : w.extractLsb' 4 4 = 0#4) :
    encodeWord cfg (.bal (w.extractLsb' 8 8 ++ w.extractLsb' 0 4)) = w := by
  simp only [encodeWord, field_append_8_4]
  rw [← h]
  simpa using (fields_join w 0 4 (fields_join w 4 4 rfl rfl) rfl).trans BitVec.extractLsb'_eq_self

theorem aluWord_of_fields {w : Half} (h : w.extractLsb' 4 1 = 0#1) :
    aluWord (w.extractLsb' 5 3) (w.extractLsb' 0 4) (w.extractLsb' 12 4) (w.extractLsb' 8 4) = w := by
  rw [aluWord, ← h]
  exact (fields_join w 0 4 (fields_join w 4 1 (fields_join w 5 3 (fields_join w 8 4 rfl rfl) rfl) rfl) rfl).trans
    BitVec.extractLsb'_eq_self

theorem shiWord_of_fields {w : Half} (h : w.extractLsb' 4 2 = 1#2) :
    shiWord (w.extractLsb' 6 1) (w.extractLsb' 0 4) (w.extractLsb' 7 4) (w.extractLsb' 11 5) = w := by
  rw [shiWord, ← h]
  exact (fields_join w 0 4 (fields_join w 4 2 (fields_join w 6 1 (fields_join w 7 4 rfl rfl) rfl) rfl) rfl).trans
    BitVec.extractLsb'_eq_self

theorem adrWord_of_fields {cfg : Config} {w : Half} (h : w.extractLsb' 4 2 = 3#2) :
    encodeWord cfg (.adr (w.extractLsb' 0 4) (w.extractLsb' 6 10)) = w := by
  rw [encodeWord, ← h]
  exact (fields_join w 0 4 (fields_join w 4 2 rfl rfl) rfl).trans BitVec.extractLsb'_eq_self

/-! What a row reads is encoded as the word it was read from. -/

@[simp] theorem lBit_isLoad (lp : LPolarity) (l : BitVec 1) : lBit lp (isLoad lp l) = l := by
  revert l; cases lp <;> decide

@[simp] theorem sBit_isFirst (sp : SPolarity) (b : BitVec 1) : sBit sp (isFirst sp b) = b := by
  revert b; cases sp <;> decide

theorem encodeWord_condBranch (cfg : Config) (c : Cond) (p : BitVec 3) (off : BitVec 7) :
    encodeWord cfg (condBranch c (pairRegs cfg.pairMap p).1 (pairRegs cfg.pairMap p).2 off) =
      bccFormat p off (condCode cfg.condCodes c) := by
  cases c <;> simp [condBranch, encodeWord, bccWord, bccFormat]

theorem hasEncoding_condBranch (cfg : Config) (c : Cond) (p : BitVec 3) (off : BitVec 7) :
    HasEncoding cfg (condBranch c (pairRegs cfg.pairMap p).1 (pairRegs cfg.pairMap p).2 off) := by
  cases c <;> exact ⟨p, rfl⟩

/-- Every opcode but 000 is an ALU instruction, whose word has that opcode (R73). -/
theorem aluInstr_of_ne_zero (cfg : Config) {op : BitVec 3} (rd ra rb : Reg) (hop : op ≠ 0#3) :
    ∃ i, aluInstr op rd ra rb = some i ∧ (rd ≠ 0#4 → HasEncoding cfg i) ∧ encodeWord cfg i = aluWord op rd ra rb := by
  have hcases : op = 1#3 ∨ op = 2#3 ∨ op = 3#3 ∨ op = 4#3 ∨ op = 5#3 ∨ op = 6#3 ∨ op = 7#3 := by
    revert op; decide
  obtain rfl | rfl | rfl | rfl | rfl | rfl | rfl := hcases <;> exact ⟨_, rfl, id, rfl⟩

section

variable (cfg : Config) (n x : BitVec 4) (rd ra rz : Reg) (m v : BitVec 5)

@[simp] theorem encodeWord_ext1 : encodeWord cfg (.ext1 n) = byteWord 0#4 n 0x80#8 := rfl

@[simp] theorem encodeWord_ext2 : encodeWord cfg (.ext2 n) = byteWord n 0#4 0x80#8 := by
  change (n ++ 0x080#12 : BitVec (4 + 12)) = byteWord n 0#4 0x80#8
  revert n; decide

@[simp] theorem encodeWord_mul : encodeWord cfg (.mul rz ra) = byteWord ra rz 0x80#8 := rfl

@[simp] theorem encodeWord_bin : encodeWord cfg (.bin ra) = byteWord 0#4 ra 0x40#8 := rfl

@[simp] theorem encodeWord_sys : encodeWord cfg (.sys n) = byteWord 0#4 n 0xC0#8 := rfl

@[simp] theorem encodeWord_imm : encodeWord cfg (.imm rd v) = immWord rd (fieldOfImm cfg.immBits v) := rfl

/-- The MEM format is the SHI format with imm5 = 0. -/
@[simp] theorem encodeWord_ldw : encodeWord cfg (.ldw rd ra) = shiWord (lBit cfg.lPolarity true) rd ra 0#5 := rfl

@[simp] theorem encodeWord_stw : encodeWord cfg (.stw rd ra) = shiWord (lBit cfg.lPolarity false) rd ra 0#5 := rfl

/-- The INC format is the SHI format with ra = r0. -/
@[simp] theorem encodeWord_inc : encodeWord cfg (.inc rz m) = shiWord (sBit cfg.sPolarity true) rz 0#4 m := rfl

@[simp] theorem encodeWord_dec : encodeWord cfg (.dec rz m) = shiWord (sBit cfg.sPolarity false) rz 0#4 m := rfl

end

theorem readRow_of_rowFields (cfg : Config) {r : Row} {w : Half} (h : RowFields r w) :
    ∃ i, readRow cfg r w = some i ∧ HasEncoding cfg i ∧ encodeWord cfg i = w := by
  cases r with
  | bal => exact ⟨_, rfl, trivial, balWord_of_fields h⟩
  | ext1 =>
    obtain ⟨htop, hbyte⟩ := h
    exact ⟨_, rfl, trivial, by rw [encodeWord_ext1, ← htop, byteWord_of_fields _ hbyte]⟩
  | bin =>
    obtain ⟨htop, hbyte⟩ := h
    exact ⟨_, rfl, trivial, by rw [encodeWord_bin, ← htop, byteWord_of_fields _ hbyte]⟩
  | sys =>
    obtain ⟨htop, hbyte⟩ := h
    exact ⟨_, rfl, trivial, by rw [encodeWord_sys, ← htop, byteWord_of_fields _ hbyte]⟩
  | ext2 =>
    obtain ⟨htop, hmid, hbyte⟩ := h
    exact ⟨_, rfl, htop, by rw [encodeWord_ext2, ← hmid, byteWord_of_fields _ hbyte]⟩
  | mul =>
    obtain ⟨htop, hmid, hbyte⟩ := h
    exact ⟨_, rfl, ⟨hmid, htop⟩, byteWord_of_fields _ hbyte⟩
  | imm =>
    obtain ⟨htop, hlow⟩ := h
    exact ⟨_, rfl, htop, by rw [encodeWord_imm, fieldOfImm_immOfField, immWord_of_fields hlow]⟩
  | bcc =>
    obtain ⟨hcode, hlow⟩ := h
    have hsome : condOfCode cfg.condCodes (w.extractLsb' 4 2) ≠ none := mt condOfCode_eq_none.mp hcode
    obtain ⟨c, hc⟩ := Option.ne_none_iff_exists'.mp hsome
    refine ⟨_, by rw [readRow, hc]; rfl, hasEncoding_condBranch _ _ _ _, ?_⟩
    rw [encodeWord_condBranch, ← condOfCode_eq_some.mp hc, bccFormat_of_fields hlow]
  | alu =>
    obtain ⟨hlow, hop, hzero⟩ := h
    obtain ⟨i, hi, henc, hword⟩ :=
      aluInstr_of_ne_zero cfg (w.extractLsb' 0 4) (w.extractLsb' 12 4) (w.extractLsb' 8 4) hop
    exact ⟨i, hi, henc hlow, hword.trans (aluWord_of_fields hzero)⟩
  | adr =>
    obtain ⟨hlow, hcode⟩ := h
    exact ⟨_, rfl, hlow, adrWord_of_fields hcode⟩
  | mem =>
    obtain ⟨hlow, himm, hcode⟩ := h
    have hword := shiWord_of_fields hcode
    rw [himm] at hword
    have hl := lBit_isLoad cfg.lPolarity (w.extractLsb' 6 1)
    refine ⟨_, rfl, ?_⟩
    split
    · next hload => exact ⟨hlow, by rw [encodeWord_ldw, ← hload, hl, hword]⟩
    · next hstore => exact ⟨hlow, by rw [encodeWord_stw, ← Bool.eq_false_iff.mpr hstore, hl, hword]⟩
  | inc =>
    obtain ⟨hlow, himm, hra, hcode⟩ := h
    have hword := shiWord_of_fields hcode
    rw [hra] at hword
    have hs := sBit_isFirst cfg.sPolarity (w.extractLsb' 6 1)
    refine ⟨_, rfl, ?_⟩
    split
    · next hfirst => exact ⟨⟨hlow, himm⟩, by rw [encodeWord_inc, ← hfirst, hs, hword]⟩
    · next hsecond => exact ⟨⟨hlow, himm⟩, by rw [encodeWord_dec, ← Bool.eq_false_iff.mpr hsecond, hs, hword]⟩
  | shi =>
    obtain ⟨hlow, himm, hra, hcode⟩ := h
    have hword := shiWord_of_fields hcode
    have hs := sBit_isFirst cfg.sPolarity (w.extractLsb' 6 1)
    refine ⟨_, rfl, ?_⟩
    split
    · next hfirst => exact ⟨⟨hlow, hra, himm⟩, by rw [encodeWord_sli, ← hfirst, hs, hword]⟩
    · next hsecond => exact ⟨⟨hlow, hra, himm⟩, by rw [encodeWord_sri, ← Bool.eq_false_iff.mpr hsecond, hs, hword]⟩

/-- Every word decodes to an instruction that has an encoding, which is the word (R63, R81, R83). -/
theorem exists_decode (cfg : Config) (w : Half) :
    ∃ i, decode cfg w = .ok i ∧ HasEncoding cfg i ∧ encodeWord cfg i = w := by
  obtain ⟨r, hr⟩ := exists_rowOf w
  obtain ⟨i, hi, henc, hword⟩ := readRow_of_rowFields cfg (rowOf_eq_some_iff_rowFields.mp hr)
  exact ⟨i, decode_eq_ok_of_rowOf hr hi, henc, hword⟩

/-! The word of an instruction that can be encoded is decided by the row of its format. -/

theorem decode_of_rowFields {cfg : Config} {w : Half} {r : Row} {i : Instr} (hr : RowFields r w)
    (hi : readRow cfg r w = some i) : decode cfg w = .ok i :=
  decode_eq_ok_of_rowOf (rowOf_eq_some_iff_rowFields.mpr hr) hi

theorem shiWord_code (b : BitVec 1) (rd ra : Reg) (n : BitVec 5) : (shiWord b rd ra n).extractLsb' 4 2 = 1#2 :=
  (rowMatches_shi _).mp (shiWord_row b rd ra n)

theorem condCode_ne_zero (cc : CondCodes) (c : Cond) : condCode cc c ≠ 0#2 := by
  cases cc <;> cases c <;> decide

theorem decode_bccFormat (cfg : Config) (c : Cond) (p : BitVec 3) (off : BitVec 7) :
    decode cfg (bccFormat p off (condCode cfg.condCodes c)) =
      .ok (condBranch c (pairRegs cfg.pairMap p).1 (pairRegs cfg.pairMap p).2 off) :=
  decode_of_rowFields (r := .bcc) ⟨by simpa using condCode_ne_zero _ _, bccFormat_low _ _ _⟩ (by simp [readRow])

theorem decode_condBranch {cfg : Config} {ra rb : Reg} (c : Cond) (off : BitVec 7)
    (h : ∃ p, pairRegs cfg.pairMap p = (ra, rb)) :
    decode cfg (encodeWord cfg (condBranch c ra rb off)) = .ok (condBranch c ra rb off) := by
  obtain ⟨p, hp⟩ := h
  have := decode_bccFormat cfg c p off
  rwa [← encodeWord_condBranch, hp] at this

theorem decode_bal (cfg : Config) (off : BitVec 12) : decode cfg (encodeWord cfg (.bal off)) = .ok (.bal off) := by
  have hfields : (encodeWord cfg (.bal off)).extractLsb' 8 8 ++ (encodeWord cfg (.bal off)).extractLsb' 0 4 = off := by
    have hjoin : off.extractLsb' 4 8 ++ off.extractLsb' 0 4 = off :=
      BitVec.extractLsb'_append_extractLsb' (w := 8) (len := 4)
    simpa [encodeWord, field_append_12_4, field_append_8_4] using hjoin
  refine decode_of_rowFields (r := .bal) ((rowMatches_bal _).mp (Laws.RowBits.bal off cfg)) ?_
  rw [readRow, hfields]

theorem decode_adr (cfg : Config) {rd : Reg} (off : BitVec 10) (hrd : rd ≠ 0#4) :
    decode cfg (encodeWord cfg (.adr rd off)) = .ok (.adr rd off) := by
  have hlow : (encodeWord cfg (.adr rd off)).extractLsb' 0 4 = rd := by
    simp [encodeWord, field_append_12_4]
  have hoff : (encodeWord cfg (.adr rd off)).extractLsb' 6 10 = off := by
    simp [encodeWord, field_append_12_4, field_append_10_2]
  refine decode_of_rowFields (r := .adr) ⟨by rwa [hlow], (rowMatches_adr _).mp (Laws.RowBits.adr rd off cfg)⟩ ?_
  rw [readRow, hlow, hoff]

/-- Decoding the word of an instruction that can be encoded gives it back (R83). -/
theorem decode_encodeWord {cfg : Config} {i : Instr} (h : HasEncoding cfg i) :
    decode cfg (encodeWord cfg i) = .ok i := by
  cases i with
  | bal off => exact decode_bal cfg off
  | ext1 n => exact decode_of_rowFields (r := .ext1) (by simp [RowFields]) (by simp [readRow])
  | ext2 n => exact decode_of_rowFields (r := .ext2) (by simpa [RowFields, HasEncoding] using h) (by simp [readRow])
  | mul rz ra =>
    exact decode_of_rowFields (r := .mul) (by simpa [RowFields, HasEncoding] using h.symm) (by simp [readRow])
  | bin ra => exact decode_of_rowFields (r := .bin) (by simp [RowFields]) (by simp [readRow])
  | sys n => exact decode_of_rowFields (r := .sys) (by simp [RowFields]) (by simp [readRow])
  | imm rd v => exact decode_of_rowFields (r := .imm) (by simpa [RowFields, HasEncoding] using h) (by simp [readRow])
  | beq ra rb off => exact decode_condBranch .eq off h
  | bne ra rb off => exact decode_condBranch .ne off h
  | blt ra rb off => exact decode_condBranch .lt off h
  | adr rd off => exact decode_adr cfg off h
  | and | orr | xor | shl | shr | add | sub => exact decode_aluWord cfg h rfl
  | ldw rd ra =>
    exact decode_of_rowFields (r := .mem) (by simpa [RowFields, HasEncoding, shiWord_code] using h) (by simp [readRow])
  | stw rd ra =>
    exact decode_of_rowFields (r := .mem) (by simpa [RowFields, HasEncoding, shiWord_code] using h) (by simp [readRow])
  | inc rz n =>
    exact decode_of_rowFields (r := .inc) (by simpa [RowFields, HasEncoding, shiWord_code] using h) (by simp [readRow])
  | dec rz n =>
    exact decode_of_rowFields (r := .inc) (by simpa [RowFields, HasEncoding, shiWord_code] using h) (by simp [readRow])
  | sli rd ra n =>
    obtain ⟨hrd, hra, hn⟩ := h
    rw [encodeWord_sli, decode_shiWord cfg _ hrd hra hn, isFirst_sBit]
    rfl
  | sri rd ra n =>
    obtain ⟨hrd, hra, hn⟩ := h
    rw [encodeWord_sri, decode_shiWord cfg _ hrd hra hn, isFirst_sBit]
    rfl

/-- A word decodes to the one instruction with an encoding whose word it is. -/
theorem decode_eq_ok_iff {cfg : Config} {w : Half} {i : Instr} :
    decode cfg w = .ok i ↔ HasEncoding cfg i ∧ encodeWord cfg i = w := by
  constructor
  · intro h
    obtain ⟨j, hj, henc, hword⟩ := exists_decode cfg w
    obtain rfl : i = j := Except.ok.inj (h.symm.trans hj)
    exact ⟨henc, hword⟩
  · rintro ⟨henc, rfl⟩
    exact decode_encodeWord henc

/-! The obligations on the round trips. -/

/-- Settles O2: `decode_encodeWord`, since `encode` answers the word of every well-formed instruction. -/
theorem decodingAnEncodedInstructionGivesItBack : Obligations.DecodingAnEncodedInstructionGivesItBack :=
  fun cfg i h => ⟨encodeWord cfg i, Machine.encode_eq_ok.mpr ⟨h, rfl⟩,
    decode_encodeWord (wellFormed_iff_hasEncoding.mp h)⟩

/-- Settles O3, from `decode_eq_ok_iff`. -/
theorem encodingADecodedWordGivesItBack : Obligations.EncodingADecodedWordGivesItBack := by
  intro cfg w i h
  obtain ⟨henc, rfl⟩ := decode_eq_ok_iff.mp h
  exact Machine.encode_eq_ok.mpr ⟨wellFormed_iff_hasEncoding.mpr henc, rfl⟩

/-- Settles O1, from `exists_decode`. -/
theorem everyWordIsAWellFormedInstruction : Obligations.EveryWordIsAWellFormedInstruction := by
  intro cfg w
  obtain ⟨i, hi, henc, -⟩ := exists_decode cfg w
  exact ⟨i, hi, wellFormed_iff_hasEncoding.mpr henc⟩

/-- Settles O7: each of the thirteen words is evaluated. -/
theorem writtenOutWordsDecode : Obligations.WrittenOutWordsDecode := by
  unfold Obligations.WrittenOutWordsDecode
  decide

/-- Settles O6: the word of an EXT has those fields, and a word with them is the word of one (D26). -/
theorem extIsTheWordsWhereMulWouldNameR0 : Obligations.ExtIsTheWordsWhereMulWouldNameR0 := by
  intro cfg w
  have hbyte8 (x y : BitVec 4) : (byteWord x y 0x80#8).extractLsb' 8 8 = (x ++ y : BitVec (4 + 4)) := by
    simp [byteWord, field_append_8_8]
  simp only [decode_eq_ok_iff, encodeWord_ext1, encodeWord_ext2]
  refine ⟨⟨?fields, ?ext⟩, ?low, ?high⟩
  case fields =>
    rintro (⟨n, -, rfl⟩ | ⟨n, -, rfl⟩) <;> simp
  case ext =>
    rintro ⟨hbyte, hzero⟩
    have hword := byteWord_of_fields _ hbyte
    by_cases htop : w.extractLsb' 12 4 = 0#4
    · exact .inl ⟨w.extractLsb' 8 4, trivial, by rw [← htop, hword]⟩
    · have hmid := hzero.resolve_left htop
      exact .inr ⟨w.extractLsb' 12 4, htop, by rw [← hmid, hword]⟩
  case low =>
    rintro n ⟨-, rfl⟩
    exact (hbyte8 0#4 n).symm
  case high =>
    rintro n ⟨-, rfl⟩
    exact (hbyte8 n 0#4).symm

/-! The decision tree (R79). -/

theorem bits7to4_ne_zero {w : Half} (h : w.extractLsb' 4 2 ≠ 0#2) : w.extractLsb' 4 4 ≠ 0#4 :=
  fun hzero => h (field_of_field hzero 0 2 (by decide))

/-- With W[5:0] = 000000 and W[7:6] ≠ 00 the tree turns to the branch named after that. -/
theorem decodeTree_of_low6_eq_zero (cfg : Config) {w : Half} (hhigh : w.extractLsb' 4 4 ≠ 0#4)
    (hlow : w.extractLsb' 0 4 = 0#4) (hcode : w.extractLsb' 4 2 = 0#2) :
    decodeTree cfg w = some (decodeTreeZeroLow cfg w) := by
  simp [decodeTree, hhigh, hlow, hcode, condOfCode_eq_none.mpr]

/-- The same, asked of a known low byte. -/
theorem decodeTree_of_byte (cfg : Config) {w : Half} {b : BitVec 8} (hbyte : w.extractLsb' 0 8 = b)
    (hhigh : b.extractLsb' 4 4 ≠ 0#4) (hlow : b.extractLsb' 0 4 = 0#4) (hcode : b.extractLsb' 4 2 = 0#2) :
    decodeTree cfg w = some (decodeTreeZeroLow cfg w) :=
  decodeTree_of_low6_eq_zero cfg (by rwa [field_of_field hbyte 4 4 (by decide)])
    ((field_of_field hbyte 0 4 (by decide)).trans hlow) ((field_of_field hbyte 4 2 (by decide)).trans hcode)

/-- With W[3:0] ≠ 0000 and W[5:4] = 01 the tree turns to the branch named after that. -/
theorem decodeTree_of_code_eq_one (cfg : Config) {w : Half} (hlow : w.extractLsb' 0 4 ≠ 0#4)
    (hcode : w.extractLsb' 4 2 = 1#2) : decodeTree cfg w = some (decodeTreeLow01 cfg w) := by
  have hhigh := bits7to4_ne_zero (w := w) (by simp [hcode])
  have hbit4 := field_of_field hcode 0 1 (by decide)
  have hbit5 := field_of_field hcode 1 1 (by decide)
  simp_all [decodeTree]

/-- In the words of every row the tree reads what the row reads. -/
theorem decodeTree_of_rowFields (cfg : Config) {r : Row} {w : Half} (h : RowFields r w) :
    decodeTree cfg w = readRow cfg r w := by
  cases r with
  | bal => simp [decodeTree, readRow, show w.extractLsb' 4 4 = 0#4 from h]
  | ext1 =>
    obtain ⟨htop, hbyte⟩ := h
    have htwo : w.extractLsb' 6 2 = 2#2 := field_of_field hbyte 6 2 (by decide)
    rw [decodeTree_of_byte cfg hbyte (by decide) (by decide) (by decide)]
    simp [decodeTreeZeroLow, readRow, htwo, htop]
  | ext2 =>
    obtain ⟨htop, hmid, hbyte⟩ := h
    have htwo : w.extractLsb' 6 2 = 2#2 := field_of_field hbyte 6 2 (by decide)
    rw [decodeTree_of_byte cfg hbyte (by decide) (by decide) (by decide)]
    simp [decodeTreeZeroLow, readRow, htwo, htop, hmid]
  | mul =>
    obtain ⟨htop, hmid, hbyte⟩ := h
    have htwo : w.extractLsb' 6 2 = 2#2 := field_of_field hbyte 6 2 (by decide)
    rw [decodeTree_of_byte cfg hbyte (by decide) (by decide) (by decide)]
    simp [decodeTreeZeroLow, readRow, htwo, htop, hmid]
  | bin =>
    obtain ⟨htop, hbyte⟩ := h
    have hone : w.extractLsb' 6 2 = 1#2 := field_of_field hbyte 6 2 (by decide)
    have hbit : w.extractLsb' 7 1 = 0#1 := field_of_field hbyte 7 1 (by decide)
    rw [decodeTree_of_byte cfg hbyte (by decide) (by decide) (by decide)]
    simp [decodeTreeZeroLow, readRow, hone, htop, hbit]
  | sys =>
    obtain ⟨htop, hbyte⟩ := h
    have hthree : w.extractLsb' 6 2 = 3#2 := field_of_field hbyte 6 2 (by decide)
    have hbit : w.extractLsb' 7 1 = 1#1 := field_of_field hbyte 7 1 (by decide)
    rw [decodeTree_of_byte cfg hbyte (by decide) (by decide) (by decide)]
    simp [decodeTreeZeroLow, readRow, hthree, htop, hbit]
  | imm =>
    obtain ⟨htop, hlow7⟩ := h
    obtain hbyte | hbyte := low7_eq_imm_iff.mp hlow7
    · have hone : w.extractLsb' 6 2 = 1#2 := field_of_field hbyte 6 2 (by decide)
      rw [decodeTree_of_byte cfg hbyte (by decide) (by decide) (by decide)]
      simp [decodeTreeZeroLow, readRow, hone, htop]
    · have hthree : w.extractLsb' 6 2 = 3#2 := field_of_field hbyte 6 2 (by decide)
      rw [decodeTree_of_byte cfg hbyte (by decide) (by decide) (by decide)]
      simp [decodeTreeZeroLow, readRow, hthree, htop]
  | bcc =>
    obtain ⟨hcode, hlow⟩ := h
    have hsome : condOfCode cfg.condCodes (w.extractLsb' 4 2) ≠ none := mt condOfCode_eq_none.mp hcode
    obtain ⟨c, hc⟩ := Option.ne_none_iff_exists'.mp hsome
    simp [decodeTree, readRow, bits7to4_ne_zero hcode, hlow, hc]
  | adr =>
    obtain ⟨hlow, hcode⟩ := h
    have hhigh := bits7to4_ne_zero (w := w) (by simp [hcode])
    have hbit4 := field_of_field hcode 0 1 (by decide)
    have hbit5 := field_of_field hcode 1 1 (by decide)
    simp_all [decodeTree, readRow]
  | alu =>
    obtain ⟨hlow, hop, hbit⟩ := h
    have hhigh : w.extractLsb' 4 4 ≠ 0#4 := fun hzero => hop (bits7to4_eq_zero_iff_op.mp hzero).1
    simp [decodeTree, readRow, hhigh, hlow, hbit]
  | mem =>
    obtain ⟨hlow, himm, hcode⟩ := h
    rw [decodeTree_of_code_eq_one cfg hlow hcode]
    simp [decodeTreeLow01, readRow, himm]
  | inc =>
    obtain ⟨hlow, himm, hra, hcode⟩ := h
    rw [decodeTree_of_code_eq_one cfg hlow hcode]
    simp [decodeTreeLow01, readRow, himm, hra]
  | shi =>
    obtain ⟨hlow, himm, hra, hcode⟩ := h
    rw [decodeTree_of_code_eq_one cfg hlow hcode]
    simp [decodeTreeLow01, readRow, himm, hra]

/-- Settles O4: in the words of every row the tree reads what the row reads. -/
theorem theDecisionTreeAgreesWithThePrecedenceTable : Obligations.TheDecisionTreeAgreesWithThePrecedenceTable := by
  intro cfg w
  obtain ⟨r, hr⟩ := exists_rowOf w
  have hfields := rowOf_eq_some_iff_rowFields.mp hr
  obtain ⟨i, hi, -⟩ := readRow_of_rowFields cfg hfields
  exact ⟨i, decode_eq_ok_of_rowOf hr hi, by rw [decodeTree_of_rowFields cfg hfields, hi]⟩

end Sys2Proof.Proofs.Encoding

/-! PROOFS about the words of violated operand constraints (spec/30_encoding.md R80): such a word is the word of another
instruction, or has the fields of another row. -/

namespace Sys2Proof.Proofs.Violated

open Sys2Proof Sys2Proof.Proofs.Decode Sys2Proof.Proofs.Encoding

section

variable {cfg : Config} {w : Half}

/-! Words whose row is known, with the operands left open. -/

/-- With W[3:0] = 0000 and W[5:4] the code of a condition, a word is the branch on that condition. -/
theorem exists_decode_condBranch {c : Cond} (hlow : w.extractLsb' 0 4 = 0#4)
    (hcode : w.extractLsb' 4 2 = condCode cfg.condCodes c) :
    ∃ ra rb off, decode cfg w = .ok (condBranch c ra rb off) := by
  rw [← bccFormat_of_fields hlow, hcode]
  exact ⟨_, _, _, decode_bccFormat cfg c _ _⟩

theorem exists_decode_bal (h : w.extractLsb' 4 4 = 0#4) : ∃ off, decode cfg w = .ok (.bal off) :=
  ⟨_, decode_eq_ok_iff.mpr ⟨trivial, balWord_of_fields h⟩⟩

theorem exists_decode_imm {rd : Reg} (htop : w.extractLsb' 12 4 = rd) (hrd : rd ≠ 0#4)
    (hlow : w.extractLsb' 0 7 = 0x40#7) : ∃ v, decode cfg w = .ok (.imm rd v) := by
  subst htop
  exact ⟨_, decode_of_rowFields (r := .imm) ⟨hrd, hlow⟩ rfl⟩

/-- W[7:0] = 0x40: BIN, or IMM where W[15:12] names a register (R80). -/
theorem decode_byteWord_bin (x y : BitVec 4) :
    if x = 0#4 then decode cfg (byteWord x y 0x40#8) = .ok (.bin y)
    else ∃ v, decode cfg (byteWord x y 0x40#8) = .ok (.imm x v) := by
  split
  case isTrue hx =>
    subst hx
    exact decode_encodeWord (i := .bin y) trivial
  case isFalse hx =>
    exact exists_decode_imm (byteWord_top _ _ _) hx (low7_eq_imm_iff.mpr (.inl (byteWord_byte _ _ _)))

/-- W[7:0] = 0xC0: SYS, or IMM where W[15:12] names a register (R80). -/
theorem decode_byteWord_sys (x y : BitVec 4) :
    if x = 0#4 then decode cfg (byteWord x y 0xC0#8) = .ok (.sys y)
    else ∃ v, decode cfg (byteWord x y 0xC0#8) = .ok (.imm x v) := by
  split
  case isTrue hx =>
    subst hx
    exact decode_encodeWord (i := .sys y) trivial
  case isFalse hx =>
    exact exists_decode_imm (byteWord_top _ _ _) hx (low7_eq_imm_iff.mpr (.inr (byteWord_byte _ _ _)))

/-- W[7:0] = 0x80: EXT of either form, or MUL where both fields name registers (R80). -/
theorem decode_byteWord_mul (x y : BitVec 4) :
    if x = 0#4 then decode cfg (byteWord x y 0x80#8) = .ok (.ext1 y)
    else if y = 0#4 then decode cfg (byteWord x y 0x80#8) = .ok (.ext2 x)
    else decode cfg (byteWord x y 0x80#8) = .ok (.mul y x) := by
  split
  case isTrue hx =>
    subst hx
    exact decode_encodeWord (i := .ext1 y) trivial
  case isFalse hx =>
    split
    case isTrue hy =>
      subst hy
      exact encodeWord_ext2 cfg x ▸ decode_encodeWord (i := .ext2 x) hx
    case isFalse hy => exact decode_encodeWord (i := .mul y x) ⟨hy, hx⟩

end

/-! Words that ignore a constraint on the destination. -/

theorem aluWord_bit4 (op : BitVec 3) (rd ra rb : Reg) : (aluWord op rd ra rb).extractLsb' 4 1 = 0#1 :=
  (rowMatches_alu _).mp (Laws.RowBits.aluWord_row op rd ra rb)

/-- An ALU word with destination r0: its low byte is the opcode and five zeros. -/
theorem aluWord_zero (op : BitVec 3) (ra rb : Reg) :
    aluWord op 0#4 ra rb = byteWord ra rb (op ++ 0#5 : BitVec (3 + 5)) := by
  have hlow5 : (aluWord op 0#4 ra rb).extractLsb' 0 5 = 0#5 :=
    (field_eq_append_iff _ 0#1 0#4 rfl).mpr ⟨aluWord_bit4 op 0#4 ra rb, aluWord_rd op 0#4 ra rb⟩
  have hbyte : (aluWord op 0#4 ra rb).extractLsb' 0 8 = (op ++ 0#5 : BitVec (3 + 5)) :=
    (field_eq_append_iff _ op 0#5 rfl).mpr ⟨aluWord_op op 0#4 ra rb, hlow5⟩
  simpa using (byteWord_of_fields _ hbyte).symm

/-- Under an odd opcode that word is a branch on the condition with code 10. -/
theorem exists_decode_aluWord_zero {cfg : Config} {c : Cond} (hc : condCode cfg.condCodes c = 2#2) {op : BitVec 3}
    (hop : op.extractLsb' 0 1 = 1#1) (ra rb : Reg) :
    ∃ a b off, decode cfg (aluWord op 0#4 ra rb) = .ok (condBranch c a b off) := by
  have hbit5 := field_of_field (aluWord_op op 0#4 ra rb) 0 1 (by decide)
  have hcode : (aluWord op 0#4 ra rb).extractLsb' 4 2 = 2#2 :=
    (field_eq_append_iff _ 1#1 0#1 rfl).mpr ⟨hbit5.trans hop, aluWord_bit4 op 0#4 ra rb⟩
  exact exists_decode_condBranch (aluWord_rd op 0#4 ra rb) (hcode.trans hc.symm)

/-- A word of the MEM, INC or SHI format with r0 in W[3:0] is a branch on the condition with code 01. -/
theorem exists_decode_shiWord_zero {cfg : Config} {c : Cond} (hc : condCode cfg.condCodes c = 1#2) (b : BitVec 1)
    (ra : Reg) (n : BitVec 5) : ∃ x y off, decode cfg (shiWord b 0#4 ra n) = .ok (condBranch c x y off) :=
  exists_decode_condBranch (shiWord_rd b 0#4 ra n) ((shiWord_code b 0#4 ra n).trans hc.symm)

/-- An ADR word with r0 in W[3:0] is a branch on the condition with code 11. -/
theorem exists_decode_adr_zero {cfg : Config} {c : Cond} (hc : condCode cfg.condCodes c = 3#2) (off : BitVec 10) :
    ∃ x y o, decode cfg (encodeWord cfg (.adr 0#4 off)) = .ok (condBranch c x y o) :=
  exists_decode_condBranch (by simp [encodeWord, field_append_12_4])
    (((rowMatches_adr _).mp (Laws.RowBits.adr 0#4 off cfg)).trans hc.symm)

/-- An IMM word with r0 in W[15:12] is BIN or SYS, by the lowest bit of its immediate field. -/
theorem exists_decode_immWord_zero (cfg : Config) (f : BitVec 5) :
    (∃ n, decode cfg (immWord 0#4 f) = .ok (.bin n) ∧ f.getLsbD 0 = false) ∨
      (∃ n, decode cfg (immWord 0#4 f) = .ok (.sys n) ∧ f.getLsbD 0 = true) := by
  have hbit := field_of_field (immWord_imm 0#4 f) 0 1 (by decide)
  have hbyte (x : BitVec 1) (hx : f.extractLsb' 0 1 = x) :
      (immWord 0#4 f).extractLsb' 0 8 = (x ++ 0x40#7 : BitVec (1 + 7)) :=
    (field_eq_append_iff _ x 0x40#7 rfl).mpr ⟨hbit.trans hx, immWord_low 0#4 f⟩
  obtain hzero | hone := BitVec.eq_zero_or_eq_one (f.extractLsb' 0 1)
  · have hfields : RowFields .bin (immWord 0#4 f) := ⟨immWord_rd 0#4 f, hbyte 0#1 hzero⟩
    exact .inl ⟨_, decode_of_rowFields hfields rfl, by simpa using congrArg (·.getLsbD 0) hzero⟩
  · have hfields : RowFields .sys (immWord 0#4 f) := ⟨immWord_rd 0#4 f, hbyte 1#1 hone⟩
    exact .inr ⟨_, decode_of_rowFields hfields rfl, by simpa using congrArg (·.getLsbD 0) hone⟩

/-! Words of the BCC format with the code 00 (R80's last row). -/

/-- W[7:0] of such a word. -/
theorem bccFormat_zero_byte (p : BitVec 3) (off : BitVec 7) (k : BitVec 2) (hk : off.extractLsb' 0 2 = k) :
    (bccFormat p off 0#2).extractLsb' 0 8 = (k ++ 0#6 : BitVec (2 + 6)) := by
  have hlow6 : (bccFormat p off 0#2).extractLsb' 0 6 = 0#6 :=
    (field_eq_append_iff _ 0#2 0#4 rfl).mpr ⟨bccFormat_code p off 0#2, bccFormat_low p off 0#2⟩
  have hk' := field_of_field (bccFormat_off p off 0#2) 0 2 (by decide)
  exact (field_eq_append_iff _ k 0#6 rfl).mpr ⟨hk'.trans hk, hlow6⟩

/-- What such a word is, by W[7:6]. -/
theorem decode_bccFormat_zero (cfg : Config) (p : BitVec 3) (off : BitVec 7) :
    let r := decode cfg (bccFormat p off 0#2)
    let k := off.extractLsb' 0 2
    (k = 0#2 → ∃ o, r = .ok (.bal o)) ∧
    (k = 1#2 → (∃ a, r = .ok (.bin a)) ∨ ∃ a v, r = .ok (.imm a v)) ∧
    (k = 2#2 → (∃ n, r = .ok (.ext1 n)) ∨ (∃ n, r = .ok (.ext2 n)) ∨ ∃ a b, r = .ok (.mul a b)) ∧
    (k = 3#2 → (∃ n, r = .ok (.sys n)) ∨ ∃ a v, r = .ok (.imm a v)) := by
  intro r k
  have hword (v : BitVec 2) (hv : k = v) : ∃ x y, r = decode cfg (byteWord x y (v ++ 0#6 : BitVec (2 + 6))) :=
    ⟨_, _, congrArg (decode cfg) (byteWord_of_fields _ (bccFormat_zero_byte p off v hv)).symm⟩
  refine ⟨fun hk => ?bal, fun hk => ?bin, fun hk => ?mul, fun hk => ?sys⟩
  case bal => exact exists_decode_bal (field_of_field (bccFormat_zero_byte p off _ hk) 4 4 (by decide))
  case bin =>
    obtain ⟨x, y, hxy⟩ := hword _ hk
    have hdecode := decode_byteWord_bin (cfg := cfg) x y
    rw [hxy]
    split at hdecode
    · exact .inl ⟨_, hdecode⟩
    · exact .inr ⟨_, hdecode⟩
  case mul =>
    obtain ⟨x, y, hxy⟩ := hword _ hk
    have hdecode := decode_byteWord_mul (cfg := cfg) x y
    rw [hxy]
    split at hdecode
    · exact .inl ⟨_, hdecode⟩
    · split at hdecode
      · exact .inr (.inl ⟨_, hdecode⟩)
      · exact .inr (.inr ⟨_, _, hdecode⟩)
  case sys =>
    obtain ⟨x, y, hxy⟩ := hword _ hk
    have hdecode := decode_byteWord_sys (cfg := cfg) x y
    rw [hxy]
    split at hdecode
    · exact .inl ⟨_, hdecode⟩
    · exact .inr ⟨_, hdecode⟩

/-- Settles O5: each clause is the word of another instruction, or of a row whose operands the table leaves open. -/
theorem aViolatedConstraintEncodesAnotherInstruction : Obligations.AViolatedConstraintEncodesAnotherInstruction := by
  intro cfg hcodes hload hfirst
  have heq : condCode cfg.condCodes .eq = 1#2 := by rw [hcodes]; rfl
  have hne : condCode cfg.condCodes .ne = 2#2 := by rw [hcodes]; rfl
  have hlt : condCode cfg.condCodes .lt = 3#2 := by rw [hcodes]; rfl
  have hstore : sBit cfg.sPolarity true = lBit cfg.lPolarity false := by rw [hload, hfirst]; rfl
  have hload : sBit cfg.sPolarity false = lBit cfg.lPolarity true := by rw [hload, hfirst]; rfl
  have halu (op : BitVec 3) (ra rb : Reg) (hop : op.extractLsb' 0 1 = 1#1) := exists_decode_aluWord_zero hne hop ra rb
  have hshi (b : BitVec 1) (ra : Reg) (n : BitVec 5) := exists_decode_shiWord_zero heq b ra n
  refine ⟨fun ra rb => ⟨halu 1#3 ra rb rfl, halu 3#3 ra rb rfl, halu 5#3 ra rb rfl, halu 7#3 ra rb rfl⟩,
    fun ra rb => ?orr, fun ra rb => ?shl, fun ra rb => ?add, exists_decode_adr_zero hlt,
    fun n => ⟨hshi _ 0#4 n, hshi _ 0#4 n⟩, fun rz hrz => ⟨?inc, ?dec⟩, fun ra n => ⟨hshi _ ra n, hshi _ ra n⟩,
    fun rd n hrd hn => ⟨?sliInc, ?sriDec⟩, fun rd ra hrd => ⟨?sliStw, ?sriLdw⟩, fun rz ra => ?mul,
    fun ra => ⟨hshi _ ra 0#5, hshi _ ra 0#5⟩, fun v => exists_decode_immWord_zero cfg _, decode_bccFormat_zero cfg⟩
  case orr =>
    have hword : encodeWord cfg (.orr 0#4 ra rb) = byteWord ra rb 0x40#8 := aluWord_zero 2#3 ra rb
    simpa only [hword] using decode_byteWord_bin ra rb
  case shl =>
    have hword : encodeWord cfg (.shl 0#4 ra rb) = byteWord ra rb 0x80#8 := aluWord_zero 4#3 ra rb
    simpa only [hword] using decode_byteWord_mul ra rb
  case add =>
    have hword : encodeWord cfg (.add 0#4 ra rb) = byteWord ra rb 0xC0#8 := aluWord_zero 6#3 ra rb
    simpa only [hword] using decode_byteWord_sys ra rb
  case inc => exact decode_eq_ok_iff.mpr ⟨hrz, by simp [hstore]⟩
  case dec => exact decode_eq_ok_iff.mpr ⟨hrz, by simp [hload]⟩
  case sliInc => exact decode_eq_ok_iff.mpr ⟨⟨hrd, hn⟩, rfl⟩
  case sriDec => exact decode_eq_ok_iff.mpr ⟨⟨hrd, hn⟩, rfl⟩
  case sliStw => exact decode_eq_ok_iff.mpr ⟨hrd, by simp [encodeWord_sli, hstore]⟩
  case sriLdw => exact decode_eq_ok_iff.mpr ⟨hrd, by simp [encodeWord_sri, hload]⟩
  case mul =>
    have hword := decode_byteWord_mul (cfg := cfg) ra rz
    by_cases hra : ra = 0#4
    · rw [if_pos hra] at hword ⊢
      exact hword
    · rw [if_neg hra] at hword ⊢
      intro hrz
      rwa [if_pos hrz] at hword

end Sys2Proof.Proofs.Violated

/-! PROOFS about the fetch and the step (spec/60_exceptions.md R202, R203; spec/45_ext_sys.md): where a fetch stops,
what a step does after it, and the machine of a platform. -/

namespace Sys2Proof.Proofs.Step

open Sys2Proof Sys2Proof.Machine

/-! The fetch address. -/

/-- Clearing bit 0 rounds an address down to an even one (R46). -/
theorem clearBit0_toNat (a : Word) : (a &&& 0xFFFFFFFE#32).toNat = 2 * (a.toNat / 2) := by
  have hshift : a &&& 0xFFFFFFFE#32 = (a >>> 1) <<< 1 := by
    rw [show 0xFFFFFFFE#32 = BitVec.allOnes 32 <<< 1 from rfl]
    apply BitVec.eq_of_getLsbD_eq
    intro i hi
    simp only [BitVec.getLsbD_and, BitVec.getLsbD_shiftLeft, BitVec.getLsbD_allOnes, BitVec.getLsbD_ushiftRight]
    by_cases hzero : i < 1
    · simp [hzero]
    · have hsucc : 1 + (i - 1) = i := by omega
      have hlt : i - 1 < 32 := by omega
      simp [hzero, hi, hsucc, hlt]
  have := a.isLt
  rw [hshift, BitVec.toNat_shiftLeft, BitVec.toNat_ushiftRight, Nat.shiftLeft_eq, Nat.shiftRight_eq_div_pow]
  omega

theorem clearBit0_of_even {a : Word} (h : a.toNat % 2 = 0) : a &&& 0xFFFFFFFE#32 = a :=
  BitVec.eq_of_toNat_eq (by rw [clearBit0_toNat]; omega)

theorem fetchAddr_of_even {s : State} (h : s.pc.toNat % 2 = 0) : fetchAddr s = s.pc := by
  unfold fetchAddr
  cases s.cfg.fetchAlign with
  | fault => rfl
  | ignoreBit0 => exact clearBit0_of_even h

theorem fetchAddr_toNat (s : State) : (fetchAddr s).toNat = (match s.cfg.fetchAlign with
    | .fault => s.pc.toNat
    | .ignoreBit0 => 2 * (s.pc.toNat / 2)) := by
  unfold fetchAddr
  cases s.cfg.fetchAlign with
  | fault => rfl
  | ignoreBit0 => exact clearBit0_toNat s.pc

/-! Where a fetch stops, in the order of its checks (R202, R203). -/

section

variable {s : State}

theorem fetch_of_odd (hpolicy : s.cfg.fetchAlign = .fault) (hodd : s.pc.toNat % 2 = 1) :
    fetch s = .error (.fetchMisaligned s.pc) := by
  refine bind_of_error ?_
  have hne : isEven s.pc ≠ true := fun h => by have := isEven_eq_true.mp h; omega
  simp [checkFetchAlign, hpolicy, hne]

theorem fetch_of_firstUnmapped (halign : s.cfg.fetchAlign = .ignoreBit0 ∨ s.pc.toNat % 2 = 0) {k : Nat}
    (h : FirstUnmapped s.cfg (fetchAddr s) 2 k) : fetch s = .error (.unmapped (fetchAddr s + BitVec.ofNat 32 k)) := by
  rw [fetch, bind_of_ok (checkFetchAlign_eq_ok.mpr halign), bind_of_error (checkMapped_of_firstUnmapped h)]

theorem fetch_of_modified (halign : s.cfg.fetchAlign = .ignoreBit0 ∨ s.pc.toNat % 2 = 0)
    (hmapped : AllMapped s.cfg (fetchAddr s) 2) (hpolicy : s.cfg.smc = .fault)
    (hmod : (fetchAddr s).toNat ∈ s.written ∨ (fetchAddr s + 1#32).toNat ∈ s.written) :
    fetch s = .error (.modifiedCode s.pc) := by
  have hcheck : checkUnmodified s = .error (.modifiedCode s.pc) := by
    simp only [checkUnmodified, hpolicy, State.isWritten, List.contains_iff_mem, Bool.or_eq_true, hmod, if_true]
  rw [fetch, bind_of_ok (checkFetchAlign_eq_ok.mpr halign), bind_of_ok (checkMapped_eq_ok.mpr hmapped),
    bind_of_error hcheck]

/-! The step. -/

theorem step_of_fetch_error {f : Fault} (h : fetch s = .error f) : step s = .fault f := by
  simp [step, h]

theorem step_of_fetch {w : Half} {i : Instr} (hfetch : fetch s = .ok w) (hdecode : decode s.cfg w = .ok i) :
    step s = exec i s := by
  simp [step, hfetch, hdecode]

end

/-- Settles O28: the premises are those of `fetch_eq_ok`. -/
theorem aStepRunsTheDecodedInstruction : Obligations.AStepRunsTheDecodedInstruction :=
  fun _ b0 b1 _ halign hmapped hsmc hb0 hb1 hdecode =>
    step_of_fetch (fetch_eq_ok.mpr ⟨halign, hmapped, hsmc, b0, b1, hb0, hb1, rfl⟩) hdecode

/-- Settles O29: the three lemmas on where a fetch stops, each with `step_of_fetch_error`. -/
theorem fetchFaultsComeInTheirOrder : Obligations.FetchFaultsComeInTheirOrder :=
  fun s => ⟨fetchAddr_toNat s,
    fun hpolicy hodd => step_of_fetch_error (fetch_of_odd hpolicy hodd),
    fun halign _ h => step_of_fetch_error (fetch_of_firstUnmapped halign h),
    fun halign hmapped hpolicy hmod => step_of_fetch_error (fetch_of_modified halign hmapped hpolicy hmod)⟩

/-! The machine of a platform (R161, R163). -/

theorem execWith_of_not_platformSpace (ext : ExtSem) (sys : SysSem) {i : Instr} (s : State)
    (h : isPlatformSpace i = false) : execWith ext sys i s = exec i s := by
  cases i with
  | ext1 | ext2 | sys => cases h
  | _ => rfl

theorem execWith_default (i : Instr) (s : State) : execWith noExtension noSystemFunction i s = exec i s := by
  cases i <;> rfl

section

variable (ext : ExtSem) (sys : SysSem) {s : State}

theorem stepWith_of_fetch_error {f : Fault} (h : fetch s = .error f) : stepWith ext sys s = .fault f := by
  simp [stepWith, h]

theorem stepWith_of_fetch {w : Half} {i : Instr} (hfetch : fetch s = .ok w) (hdecode : decode s.cfg w = .ok i) :
    stepWith ext sys s = execWith ext sys i s := by
  simp [stepWith, hfetch, hdecode]

end

/-- Settles O27: the two steps fetch and decode alike, and `execWith` differs from `exec` on EXT and SYS only. -/
theorem platformExtensionsMatterOnlyToTheirWords : Obligations.PlatformExtensionsMatterOnlyToTheirWords := by
  refine ⟨fun ext sys s w i hfetch hdecode hi => ?platform, fun s => ?default⟩
  case platform =>
    rw [stepWith_of_fetch ext sys hfetch hdecode, execWith_of_not_platformSpace ext sys s hi,
      step_of_fetch hfetch hdecode]
  case default =>
    cases hfetch : fetch s with
    | error f => rw [stepWith_of_fetch_error _ _ hfetch, step_of_fetch_error hfetch]
    | ok w =>
      obtain ⟨i, hdecode, -⟩ := Encoding.exists_decode s.cfg w
      rw [stepWith_of_fetch _ _ hfetch hdecode, execWith_default, step_of_fetch hfetch hdecode]

/-- Settles O25: both forms end in the default EXT_SEM (D18, D26). -/
theorem extStopsWithItsOperand : Obligations.ExtStopsWithItsOperand :=
  fun _ _ => ⟨rfl, rfl⟩

/-- Settles O26: the encoding is R83's, the stop the default SYS_SEM (D19). -/
theorem sysStopsWithItsOperand : Obligations.SysStopsWithItsOperand :=
  ⟨fun _ n => Encoding.decode_encodeWord (i := .sys n) trivial, fun _ _ => rfl⟩

end Sys2Proof.Proofs.Step

/-! PROOFS about the instructions that compute a register or set pc (spec/41_integer_alu.md, spec/42_multiply.md,
spec/44_immediate.md, spec/40_control_flow.md): encoding, result and frame. -/

namespace Sys2Proof.Proofs.Instructions

open Sys2Proof Sys2Proof.Machine Sys2Proof.Proofs.Decode Sys2Proof.Proofs.Encoding Sys2Proof.Proofs.IntegerAlu
  Sys2Proof.Proofs.Pseudo Sys2Proof.Proofs.Step

/-! What the instructions do, one equation each; those not here stand in `IntegerAlu` and `Pseudo`. -/

section

variable (s : State) (rd ra rb rz : Reg) (n : BitVec 5)

theorem exec_sub : exec (.sub rd ra rb) s = .next (s.writeAndAdvance rd (s.reg ra - s.reg rb)) := rfl

theorem exec_inc : exec (.inc rz n) s = .next (s.writeAndAdvance rz (s.reg rz + zeroExt n)) := rfl

theorem exec_dec : exec (.dec rz n) s = .next (s.writeAndAdvance rz (s.reg rz - zeroExt n)) := rfl

theorem exec_mul : exec (.mul rz ra) s = .next (s.writeAndAdvance rz (mulLow (s.reg rz) (s.reg ra))) := rfl

theorem exec_imm : exec (.imm rd n) s = .next (s.writeAndAdvance rd (signExt n)) := rfl

theorem exec_adr (off : BitVec 10) : exec (.adr rd off) s = .next (s.writeAndAdvance rd (relTarget s.pc off)) := rfl

theorem exec_bal (off : BitVec 12) : exec (.bal off) s = .next (s.setPc (relTarget s.pc off)) := rfl

/-- A conditional branch sets pc to one of two addresses. -/
theorem exec_condBranch (c : Cond) (off : BitVec 7) : exec (condBranch c ra rb off) s =
    .next (s.setPc (if condHolds c (s.reg ra) (s.reg rb) then relTarget s.pc off else s.pc + 2#32)) := by
  rw [← branchOn_eq]
  cases c <;> rfl

end

/-- An instruction that computes one register: result and frame together, the result described by `P`. -/
theorem exists_onlyRegister_and {i : Instr} {s : State} {rd : Reg} {v : Word} {P : Word → Prop}
    (h : exec i s = .next (s.writeAndAdvance rd v)) (hv : P v) :
    ∃ t v, exec i s = .next t ∧ OnlyRegister s t rd v ∧ P v :=
  ⟨_, v, h, writeAndAdvance_onlyRegister s rd v, hv⟩

/-! What they compute (R10). -/

theorem sub_toNat (a b : Word) : ((a - b).toNat : Int) = (a.toNat - b.toNat : Int) % 2 ^ 32 := by
  have ha := a.isLt
  have hb := b.isLt
  rw [BitVec.toNat_sub]
  omega

@[simp] theorem zeroExt_toNat (n : BitVec 5) : (zeroExt n).toNat = n.toNat := by
  have := n.isLt
  rw [zeroExt, BitVec.toNat_setWidth]
  omega

theorem signExt_toInt {n : Nat} (hn : n ≤ 32) (v : BitVec n) : (signExt v).toInt = v.toInt :=
  BitVec.toInt_signExtend_of_le hn

theorem mulLow_toNat (a b : Word) : (mulLow a b).toNat = a.toNat * b.toNat % 2 ^ 32 :=
  BitVec.toNat_ofNat _ _

/-- The low word of a product does not depend on the factors' signs (R130). -/
theorem mulLow_eq_signed (a b : Word) : mulLow a b = BitVec.ofInt 32 (a.toInt * b.toInt) := by
  rw [BitVec.ofInt_mul, BitVec.ofInt_toInt, BitVec.ofInt_toInt]
  exact BitVec.eq_of_toNat_eq (by rw [mulLow_toNat, BitVec.toNat_mul])

/-- A relative target is pc plus twice the signed offset, modulo 2^32 (R100). -/
theorem relTarget_eq {n : Nat} (pc : Word) (off : BitVec n) :
    relTarget pc off = BitVec.ofInt 32 (pc.toNat + 2 * off.toInt) := by
  rw [BitVec.ofInt_add, BitVec.ofInt_mul, BitVec.ofInt_natCast, BitVec.ofNat_toNat, BitVec.setWidth_eq]
  rfl

theorem condHolds_eq_iff {a b : Word} : condHolds .eq a b = true ↔ a = b := beq_iff_eq

theorem condHolds_ne_iff {a b : Word} : condHolds .ne a b = true ↔ a ≠ b := bne_iff_ne

theorem condHolds_lt_iff {a b : Word} : condHolds .lt a b = true ↔ a.toInt < b.toInt := BitVec.slt_iff_toInt_lt

/-! The obligations on results. -/

/-- Settles O10: ADD and SUB are the library's sum and difference of words (D17). -/
theorem sumsAndDifferencesWrap : Obligations.SumsAndDifferencesWrap :=
  ⟨fun _ _ _ _ hrd => ⟨decode_encodeWord (i := .add ..) hrd, decode_encodeWord (i := .sub ..) hrd⟩,
   fun s rd ra rb =>
    ⟨exists_onlyRegister_and (exec_add s rd ra rb) (BitVec.toNat_add _ _),
     exists_onlyRegister_and (exec_sub s rd ra rb) (sub_toNat _ _)⟩⟩

/-- A word of the INC format is INC or DEC, as its bit S says (R75). -/
theorem decode_incWord (cfg : Config) (b : BitVec 1) {rz : Reg} {n : BitVec 5} (hrz : rz ≠ 0#4) (hn : n ≠ 0#5) :
    decode cfg (shiWord b rz 0#4 n) = .ok (if isFirst cfg.sPolarity b then .inc rz n else .dec rz n) := by
  refine decode_of_rowFields (r := .inc) ?_ (by simp [readRow])
  exact ⟨by simpa, by simpa, by simp, shiWord_code b rz 0#4 n⟩

/-- Settles O11: S_POLARITY decides which value of the bit S `decode_incWord` reads as INC. -/
theorem incrementAndDecrementByTheImmediate : Obligations.IncrementAndDecrementByTheImmediate := by
  refine ⟨fun cfg rz n hrz hn => ?_, fun s rz n =>
    ⟨exists_onlyRegister_and (exec_inc s rz n) ?_, exists_onlyRegister_and (exec_dec s rz n) ?_⟩⟩
  · have hdecode (b : BitVec 1) := decode_incWord cfg b hrz hn
    cases hpol : cfg.sPolarity with
    | zeroIsFirst =>
      rw [hpol] at hdecode
      exact ⟨hdecode 0#1, hdecode 1#1⟩
    | oneIsFirst =>
      rw [hpol] at hdecode
      exact ⟨hdecode 1#1, hdecode 0#1⟩
  · rw [BitVec.toNat_add, zeroExt_toNat]
  · rw [sub_toNat, zeroExt_toNat]

/-- Settles O13: MUL writes `mulLow`, the product of words (D16). -/
theorem multiplyKeepsTheLowWordOfTheProduct : Obligations.MultiplyKeepsTheLowWordOfTheProduct :=
  ⟨fun _ rz ra hrz hra => decode_encodeWord (i := .mul rz ra) ⟨hrz, hra⟩,
   fun s rz ra => exists_onlyRegister_and (exec_mul s ra rz) ⟨mulLow_toNat _ _, mulLow_eq_signed _ _⟩⟩

/-- Settles O14: the encoding is R83's for the immediate that IMM_BITS makes of the field. -/
theorem loadImmediateSignExtends : Obligations.LoadImmediateSignExtends := by
  refine ⟨fun cfg rd f hrd => ?_, fun s rd n =>
    exists_onlyRegister_and (exec_imm s rd n) (signExt_toInt (by decide) n)⟩
  have hdecode : decode cfg (immWord rd f) = .ok (.imm rd (immOfField cfg.immBits f)) :=
    decode_eq_ok_iff.mpr ⟨hrd, by simp⟩
  exact hdecode

/-! The obligations on control flow. -/

/-- Settles O15. -/
theorem branchAlwaysGoesToItsTarget : Obligations.BranchAlwaysGoesToItsTarget :=
  ⟨fun cfg off => decode_bal cfg off,
   fun s off => ⟨_, exec_bal s off, relTarget_eq s.pc off ▸ setPc_onlyPc s _⟩⟩

/-- Settles O16: the target is the whole register, and the next step is a fetch there (`fetch_of_odd`, and
`fetch_of_firstUnmapped` at its first byte). -/
theorem branchIndirectGoesToTheRegister : Obligations.BranchIndirectGoesToTheRegister := by
  refine ⟨fun _ ra => decode_encodeWord (i := .bin ra) trivial, fun s ra =>
    ⟨_, exec_bin s ra, setPc_onlyPc s _, fun hpolicy hodd => ?odd, fun heven hunmapped => ?unmapped⟩⟩
  case odd => exact step_of_fetch_error (fetch_of_odd hpolicy hodd)
  case unmapped =>
    have haddr : fetchAddr (s.setPc (s.reg ra)) = s.reg ra := fetchAddr_of_even heven
    have hfirst : FirstUnmapped (s.setPc (s.reg ra)).cfg (fetchAddr (s.setPc (s.reg ra))) 2 0 :=
      ⟨by decide, by simpa [haddr] using hunmapped, by simp⟩
    simpa [haddr] using step_of_fetch_error (fetch_of_firstUnmapped (.inr heven) hfirst)

/-- Settles O17: `decode_bccFormat` for the encoding, `exec_condBranch` for the effect. -/
theorem conditionalBranchesCompareTheirPair : Obligations.ConditionalBranchesCompareTheirPair := by
  refine ⟨fun cfg p off => ⟨decode_bccFormat cfg .eq p off, decode_bccFormat cfg .ne p off,
    decode_bccFormat cfg .lt p off⟩, fun s ra rb off => ?_⟩
  have hbranch (c : Cond) : ∃ t, exec (condBranch c ra rb off) s = .next t ∧
      OnlyPc s t (if condHolds c (s.reg ra) (s.reg rb) then BitVec.ofInt 32 (s.pc.toNat + 2 * off.toInt)
        else s.pc + 2#32) :=
    ⟨_, exec_condBranch s ra rb c off, relTarget_eq s.pc off ▸ setPc_onlyPc s _⟩
  have heq := hbranch .eq
  have hne := hbranch .ne
  have hlt := hbranch .lt
  simp only [condHolds_eq_iff, condHolds_ne_iff, condHolds_lt_iff] at heq hne hlt
  exact ⟨heq, hne, hlt⟩

/-- Settles O18: the defaults of `condCode` and `pairRegs` in `decode_bccFormat` (D10, D11). -/
theorem theDefaultCodesAndPairs : Obligations.TheDefaultCodesAndPairs := by
  intro cfg p off hcodes hpairs
  have hdecode (c : Cond) := decode_bccFormat cfg c p off
  rw [hcodes, hpairs] at hdecode
  refine ⟨(pairRegs .evenOdd p).1, (pairRegs .evenOdd p).2, ?_, ?_, hdecode .eq, hdecode .ne, hdecode .lt⟩
  · clear hdecode; revert p; decide
  · clear hdecode; revert p; decide

/-- Settles O19 (D8, D9). -/
theorem adrComputesAnAddressRelativeToThePc : Obligations.AdrComputesAnAddressRelativeToThePc :=
  ⟨fun cfg _ off hrd => decode_adr cfg off hrd,
   fun s rd off => exists_onlyRegister (relTarget_eq s.pc off ▸ exec_adr s rd off)⟩

end Sys2Proof.Proofs.Instructions

/-! PROOFS about memory and the two instructions that reach it (spec/20_memory.md, spec/43_load_store.md): what a read
and a write of a word do byte by byte, and where LDW and STW stop. -/

namespace Sys2Proof.Proofs.LoadStore

open Sys2Proof Sys2Proof.Machine Sys2Proof.Proofs.Encoding

/-! Fields of a 32-bit word put together from bytes. -/

theorem field_append_24_8 (x : BitVec 24) (y : BitVec 8) (lo n : Nat) :
    (x ++ y).extractLsb' lo n =
      if h : lo < 8 then
        if g : lo + n ≤ 8 then y.extractLsb' lo n
        else (x.extractLsb' (lo - 8) (n - (8 - lo)) ++ y.extractLsb' lo (8 - lo)).cast (by omega)
      else x.extractLsb' (lo - 8) n :=
  BitVec.extractLsb'_append_eq_ite

theorem field_append_16_8 (x : BitVec 16) (y : BitVec 8) (lo n : Nat) :
    (x ++ y).extractLsb' lo n =
      if h : lo < 8 then
        if g : lo + n ≤ 8 then y.extractLsb' lo n
        else (x.extractLsb' (lo - 8) (n - (8 - lo)) ++ y.extractLsb' lo (8 - lo)).cast (by omega)
      else x.extractLsb' (lo - 8) n :=
  BitVec.extractLsb'_append_eq_ite

/-- The byte of a word made of bytes is the byte it was made of (R43, R44). -/
theorem wordByte_joinWord (e : Endian) (b0 b1 b2 b3 : Byte) :
    wordByte e (joinWord e b0 b1 b2 b3) 0 = b0 ∧ wordByte e (joinWord e b0 b1 b2 b3) 1 = b1 ∧
      wordByte e (joinWord e b0 b1 b2 b3) 2 = b2 ∧ wordByte e (joinWord e b0 b1 b2 b3) 3 = b3 := by
  cases e <;> simp [wordByte, joinWord, field_append_24_8, field_append_16_8, field_append_8_8]

/-- The word its four bytes make is that word (R48). -/
@[simp] theorem joinWord_wordByte (e : Endian) (v : Word) :
    joinWord e (wordByte e v 0) (wordByte e v 1) (wordByte e v 2) (wordByte e v 3) = v := by
  have h : v.extractLsb' 24 8 ++ v.extractLsb' 16 8 ++ v.extractLsb' 8 8 ++ v.extractLsb' 0 8 = v :=
    (fields_join v 0 8 (fields_join v 8 8 (fields_join v 16 8 rfl rfl) rfl) rfl).trans BitVec.extractLsb'_eq_self
  cases e <;> exact h

/-- The half words its bytes make are the halves, in the order of ENDIAN (R48). -/
theorem joinHalf_wordByte (e : Endian) (v : Word) :
    (match e with
      | .little => joinHalf e (wordByte e v 0) (wordByte e v 1) = v.extractLsb' 0 16 ∧
          joinHalf e (wordByte e v 2) (wordByte e v 3) = v.extractLsb' 16 16
      | .big => joinHalf e (wordByte e v 0) (wordByte e v 1) = v.extractLsb' 16 16 ∧
          joinHalf e (wordByte e v 2) (wordByte e v 3) = v.extractLsb' 0 16) := by
  have hlow : v.extractLsb' 8 8 ++ v.extractLsb' 0 8 = v.extractLsb' 0 16 := fields_join v 0 8 rfl rfl
  have hhigh : v.extractLsb' 24 8 ++ v.extractLsb' 16 8 = v.extractLsb' 16 16 := fields_join v 16 8 rfl rfl
  cases e with
  | little => exact ⟨hlow, hhigh⟩
  | big => exact ⟨hhigh, hlow⟩

/-! Reads: what stops one. -/

section

variable {s : State} {a : Word}

theorem readByte_of_none (h : s.byte? a = none) : readByte s a = .error (.unwrittenMemory a) := by
  simp [readByte, h]

theorem memReadHalf_of_firstUnmapped {k : Nat} (h : FirstUnmapped s.cfg a 2 k) :
    memReadHalf s a = .error (.unmapped (a + BitVec.ofNat 32 k)) :=
  bind_of_error (checkMapped_of_firstUnmapped h)

theorem memReadWord_of_firstUnmapped {k : Nat} (h : FirstUnmapped s.cfg a 4 k) :
    memReadWord s a = .error (.unmapped (a + BitVec.ofNat 32 k)) :=
  bind_of_error (checkMapped_of_firstUnmapped h)

theorem memWriteWord_of_firstUnmapped (v : Word) {k : Nat} (h : FirstUnmapped s.cfg a 4 k) :
    memWriteWord s a v = .error (.unmapped (a + BitVec.ofNat 32 k)) :=
  bind_of_error (checkMapped_of_firstUnmapped h)

theorem memReadHalf_of_bytes (hmapped : AllMapped s.cfg a 2) {b0 b1 : Byte} (h0 : s.byte? a = some b0)
    (h1 : s.byte? (a + 1#32) = some b1) : memReadHalf s a = .ok (joinHalf s.cfg.endian b0 b1) :=
  memReadHalf_eq_ok.mpr ⟨hmapped, b0, b1, h0, h1, rfl⟩

theorem memReadWord_of_holdsBytes (hmapped : AllMapped s.cfg a 4) {b0 b1 b2 b3 : Byte}
    (h : HoldsBytes s a b0 b1 b2 b3) : memReadWord s a = .ok (joinWord s.cfg.endian b0 b1 b2 b3) :=
  memReadWord_eq_ok.mpr ⟨hmapped, _, _, _, _, h, rfl⟩

/-- `MemRead(addr, 4)`, its addresses written as those of the four bytes (R43). -/
theorem memReadWord_eq (s : State) (a : Word) : memReadWord s a = (do
    checkMapped s.cfg a 4
    let b0 ← readByte s (wordByteAddr a 0)
    let b1 ← readByte s (wordByteAddr a 1)
    let b2 ← readByte s (wordByteAddr a 2)
    let b3 ← readByte s (wordByteAddr a 3)
    return joinWord s.cfg.endian b0 b1 b2 b3) := by
  simp only [memReadWord, wordByteAddr, BitVec.add_zero]

/-- A read stops at the first byte that holds no value (log 3). -/
theorem memReadWord_of_first_none {k : Nat} (hmapped : AllMapped s.cfg a 4) (hk : k < 4)
    (hnone : s.byte? (wordByteAddr a k) = none) (hsome : ∀ j < k, (s.byte? (wordByteAddr a j)).isSome = true) :
    memReadWord s a = .error (.unwrittenMemory (wordByteAddr a k)) := by
  have hread (j : Nat) (hj : j < k) : ∃ b, readByte s (wordByteAddr a j) = .ok b := by
    obtain ⟨b, hb⟩ := Option.isSome_iff_exists.mp (hsome j hj)
    exact ⟨b, readByte_eq_ok.mpr hb⟩
  have hstop := readByte_of_none hnone
  rw [memReadWord_eq, bind_of_ok (checkMapped_eq_ok.mpr hmapped)]
  match k, hk with
  | 0, _ => exact bind_of_error hstop
  | 1, _ =>
    obtain ⟨b0, h0⟩ := hread 0 (by decide)
    rw [bind_of_ok h0, bind_of_error hstop]
  | 2, _ =>
    obtain ⟨b0, h0⟩ := hread 0 (by decide)
    obtain ⟨b1, h1⟩ := hread 1 (by decide)
    rw [bind_of_ok h0, bind_of_ok h1, bind_of_error hstop]
  | 3, _ =>
    obtain ⟨b0, h0⟩ := hread 0 (by decide)
    obtain ⟨b1, h1⟩ := hread 1 (by decide)
    obtain ⟨b2, h2⟩ := hread 2 (by decide)
    rw [bind_of_ok h0, bind_of_ok h1, bind_of_ok h2, bind_of_error hstop]

/-- A half of an access of four bytes is mapped with it. -/
theorem AllMapped.half (h : AllMapped s.cfg a 4) : AllMapped s.cfg a 2 ∧ AllMapped s.cfg (a + 2#32) 2 := by
  refine ⟨fun k hk => h k (by omega), fun k hk => ?_⟩
  have := h (2 + k) (by omega)
  rwa [BitVec.ofNat_add, ← BitVec.add_assoc] at this

end

/-- Settles O23: `checkMapped_of_firstUnmapped` for the faults, `wordByte_joinWord` for the bytes of a word (D1). -/
theorem readsAssembleTheirBytesByEndian : Obligations.ReadsAssembleTheirBytesByEndian := by
  refine fun s a => ⟨fun k h => memReadHalf_of_firstUnmapped h, fun k h => memReadWord_of_firstUnmapped h,
    fun hmapped b0 b1 h0 h1 => ⟨_, memReadHalf_of_bytes hmapped h0 h1, ?half⟩,
    fun hmapped b0 b1 b2 b3 h => ⟨_, memReadWord_of_holdsBytes hmapped h, ?word⟩⟩
  case half =>
    cases s.cfg.endian <;> simp [joinHalf, field_append_8_8]
  case word =>
    have hbytes := wordByte_joinWord s.cfg.endian b0 b1 b2 b3
    cases he : s.cfg.endian <;> rw [he] at hbytes <;> exact hbytes

/-! A word stored. -/

section

variable (s : State) (a v : Word)

/-- Every byte after a store of a word. -/
theorem storeWord_byte? (b : Word) : (s.storeWord a v).byte? b =
    if b = a + 3#32 then some (wordByte s.cfg.endian v 3) else
    if b = a + 2#32 then some (wordByte s.cfg.endian v 2) else
    if b = a + 1#32 then some (wordByte s.cfg.endian v 1) else
    if b = a then some (wordByte s.cfg.endian v 0) else s.byte? b := by
  simp only [State.storeWord, storeByte_byte?]

theorem storeWord_byte?_at {k : Nat} (hk : k < 4) :
    (s.storeWord a v).byte? (wordByteAddr a k) = some (wordByte s.cfg.endian v k) := by
  match k, hk with
  | 0, _ => simp [storeWord_byte?, wordByteAddr]
  | 1, _ => simp [storeWord_byte?, wordByteAddr]
  | 2, _ => simp [storeWord_byte?, wordByteAddr]
  | 3, _ => simp [storeWord_byte?, wordByteAddr]

theorem storeWord_holdsBytes : HoldsBytes (s.storeWord a v) a (wordByte s.cfg.endian v 0) (wordByte s.cfg.endian v 1)
    (wordByte s.cfg.endian v 2) (wordByte s.cfg.endian v 3) := by
  simp [HoldsBytes, storeWord_byte?]

theorem storeWord_byte?_other {b : Word} (h : ∀ k < 4, b ≠ wordByteAddr a k) :
    (s.storeWord a v).byte? b = s.byte? b := by
  have h0 : b ≠ a := by simpa [wordByteAddr] using h 0 (by decide)
  have h1 : b ≠ a + 1#32 := h 1 (by decide)
  have h2 : b ≠ a + 2#32 := h 2 (by decide)
  have h3 : b ≠ a + 3#32 := h 3 (by decide)
  simp [storeWord_byte?, h0, h1, h2, h3]

/-- The bytes an STW of this word enters in `written` (R44). -/
theorem mem_storeWord_written {n : Nat} :
    n ∈ (s.storeWord a v).written ↔ n ∈ s.written ∨ ∃ k < 4, n = (wordByteAddr a k).toNat := by
  simp only [State.storeWord, storeByte_written, mem_addrInsert, Nat.exists_lt_succ_right, Nat.not_lt_zero, false_and,
    exists_false, false_or, wordByteAddr, BitVec.add_zero]
  tauto

/-- The byte of a word at an offset, as the statements write it (R44). -/
theorem wordByte_eq (e : Endian) (v : Word) {k : Nat} (hk : k < 4) :
    wordByte e v k = (match e with
      | .little => v.extractLsb' (8 * k) 8
      | .big => v.extractLsb' (8 * (3 - k)) 8) := by
  cases e with
  | little => rfl
  | big =>
    have hoff : 24 - 8 * k = 8 * (3 - k) := by omega
    rw [wordByte, hoff]

theorem storeWord_advance_onlyStored : OnlyStored s (s.storeWord a v).advance a v :=
  ⟨fun _ hk => (storeWord_byte?_at s a v hk).trans (congrArg some (wordByte_eq _ v hk)),
   fun _ hb => storeWord_byte?_other s a v hb, fun _ => mem_storeWord_written s a v, fun _ => rfl, rfl, rfl⟩

end

/-- Settles O24: the bytes that were stored are the word's (`joinWord_wordByte`, `joinHalf_wordByte`). -/
theorem aStoredWordReadsBackWholeAndInHalves : Obligations.AStoredWordReadsBackWholeAndInHalves := by
  intro s t a v hwrite
  obtain ⟨hmapped, rfl⟩ := memWriteWord_eq_ok.mp hwrite
  have hbytes := storeWord_holdsBytes s a v
  have hword := memReadWord_of_holdsBytes (s := s.storeWord a v) hmapped hbytes
  obtain ⟨h0, h1, h2, h3⟩ := hbytes
  obtain ⟨hfirst, hsecond⟩ := AllMapped.half (s := s) hmapped
  have hnext : a + 2#32 + 1#32 = a + 3#32 := by rw [BitVec.add_assoc]; rfl
  have hread0 := memReadHalf_of_bytes (s := s.storeWord a v) hfirst h0 h1
  have hread2 := memReadHalf_of_bytes (s := s.storeWord a v) hsecond h2 (hnext ▸ h3)
  have hhalves := joinHalf_wordByte s.cfg.endian v
  refine ⟨by simpa using hword, ?_⟩
  rw [storeWord_cfg] at hread0 hread2
  cases he : s.cfg.endian with
  | little =>
    rw [he] at hhalves hread0 hread2
    exact ⟨hhalves.1 ▸ hread0, hhalves.2 ▸ hread2⟩
  | big =>
    rw [he] at hhalves hread0 hread2
    exact ⟨hhalves.1 ▸ hread0, hhalves.2 ▸ hread2⟩

/-! LDW and STW: where they stop, in the order of their checks (R203). -/

section

variable {s : State} {rd ra : Reg}

/-- A check has one way to fail. -/
theorem checkRaField_ok_or_error (cfg : Config) (ra : Reg) (w : Half) :
    checkRaField cfg ra w = .ok () ∨ checkRaField cfg ra w = .error (.constraintViolated w) := by
  unfold checkRaField
  split
  · exact .inl rfl
  · split
    · exact .inr rfl
    · exact .inl rfl

theorem checkDataAlign_ok_or_error (cfg : Config) (a : Word) :
    checkDataAlign cfg a = .ok () ∨ checkDataAlign cfg a = .error (.dataMisaligned a) := by
  unfold checkDataAlign
  split
  · split
    · exact .inl rfl
    · exact .inr rfl
  · exact .inl rfl

theorem checkRaField_of_not_raAllowed {cfg : Config} {w : Half} (h : ¬ RaAllowed cfg ra) :
    checkRaField cfg ra w = .error (.constraintViolated w) :=
  (checkRaField_ok_or_error cfg ra w).resolve_left (mt checkRaField_eq_ok.mp h)

theorem checkDataAlign_of_not_alignAllowed {cfg : Config} {a : Word} (h : ¬ AlignAllowed cfg a) :
    checkDataAlign cfg a = .error (.dataMisaligned a) :=
  (checkDataAlign_ok_or_error cfg a).resolve_left (mt checkDataAlign_eq_ok.mp h)

theorem exec_ldw_of_not_raAllowed (h : ¬ RaAllowed s.cfg ra) :
    exec (.ldw rd ra) s = .fault (.constraintViolated (encodeWord s.cfg (.ldw rd ra))) :=
  finish_eq_fault.mpr (bind_of_error (checkRaField_of_not_raAllowed h))

theorem exec_stw_of_not_raAllowed (h : ¬ RaAllowed s.cfg ra) :
    exec (.stw rd ra) s = .fault (.constraintViolated (encodeWord s.cfg (.stw rd ra))) :=
  finish_eq_fault.mpr (bind_of_error (checkRaField_of_not_raAllowed h))

theorem exec_ldw_of_not_alignAllowed (hra : RaAllowed s.cfg ra) (h : ¬ AlignAllowed s.cfg (s.reg ra)) :
    exec (.ldw rd ra) s = .fault (.dataMisaligned (s.reg ra)) :=
  finish_eq_fault.mpr ((bind_of_ok (checkRaField_eq_ok.mpr hra)).trans
    (bind_of_error (checkDataAlign_of_not_alignAllowed h)))

theorem exec_stw_of_not_alignAllowed (hra : RaAllowed s.cfg ra) (h : ¬ AlignAllowed s.cfg (s.reg rd)) :
    exec (.stw rd ra) s = .fault (.dataMisaligned (s.reg rd)) :=
  finish_eq_fault.mpr ((bind_of_ok (checkRaField_eq_ok.mpr hra)).trans
    (bind_of_error (checkDataAlign_of_not_alignAllowed h)))

/-- Past its two checks LDW stops where its read does. -/
theorem exec_ldw_of_read_error {f : Fault} (hra : RaAllowed s.cfg ra) (halign : AlignAllowed s.cfg (s.reg ra))
    (h : memReadWord s (s.reg ra) = .error f) : exec (.ldw rd ra) s = .fault f :=
  finish_eq_fault.mpr ((bind_of_ok (checkRaField_eq_ok.mpr hra)).trans
    ((bind_of_ok (checkDataAlign_eq_ok.mpr halign)).trans (bind_of_error h)))

/-- Past its two checks STW stops where its write does. -/
theorem exec_stw_of_write_error {f : Fault} (hra : RaAllowed s.cfg ra) (halign : AlignAllowed s.cfg (s.reg rd))
    (h : memWriteWord s (s.reg rd) (s.reg ra) = .error f) : exec (.stw rd ra) s = .fault f :=
  finish_eq_fault.mpr ((bind_of_ok (checkRaField_eq_ok.mpr hra)).trans
    ((bind_of_ok (checkDataAlign_eq_ok.mpr halign)).trans (bind_of_error h)))

/-- LDW completes with the word its read answers. -/
theorem exec_ldw_of_read {v : Word} (hra : RaAllowed s.cfg ra) (halign : AlignAllowed s.cfg (s.reg ra))
    (h : memReadWord s (s.reg ra) = .ok v) : exec (.ldw rd ra) s = .next (s.writeAndAdvance rd v) :=
  execLdw_eq_next.mpr ⟨hra, halign, v, h, rfl⟩

/-- STW completes when every check passes. -/
theorem exec_stw_of_mapped (hra : RaAllowed s.cfg ra) (halign : AlignAllowed s.cfg (s.reg rd))
    (h : AllMapped s.cfg (s.reg rd) 4) :
    exec (.stw rd ra) s = .next (s.storeWord (s.reg rd) (s.reg ra)).advance :=
  execStw_eq_next.mpr ⟨hra, halign, h, rfl⟩

end

/-- Settles O20: the checks in their order, then the read (D28). -/
theorem loadWordReadsTheWordAtTheAddress : Obligations.LoadWordReadsTheWordAtTheAddress := by
  refine ⟨fun cfg rd ra hrd => ?encoding, fun s rd ra => ⟨exec_ldw_of_not_raAllowed, exec_ldw_of_not_alignAllowed,
    fun hra halign k h => exec_ldw_of_read_error hra halign (memReadWord_of_firstUnmapped h),
    fun hra halign hmapped b0 b1 b2 b3 h =>
      ⟨_, exec_ldw_of_read hra halign (memReadWord_of_holdsBytes hmapped h), writeAndAdvance_onlyRegister s rd _⟩⟩⟩
  case encoding =>
    have hdecode : decode cfg (encodeWord cfg (.ldw rd ra)) = .ok (.ldw rd ra) := decode_encodeWord hrd
    cases hpol : cfg.lPolarity <;> rw [encodeWord, hpol] at hdecode <;> exact hdecode

/-- Settles O21: past the checks LDW stops where its read does, at the first byte with no value (log 3). -/
theorem loadOfAByteWithNoValueStops : Obligations.LoadOfAByteWithNoValueStops :=
  fun _ _ _ _ hra halign hmapped hk hnone hsome =>
    exec_ldw_of_read_error hra halign (memReadWord_of_first_none hmapped hk hnone hsome)

/-- Settles O22: the checks in their order, then the store (D28). -/
theorem storeWordWritesTheWordAtTheAddress : Obligations.StoreWordWritesTheWordAtTheAddress := by
  refine ⟨fun cfg rd ra hrd => ?encoding, fun s rd ra => ⟨exec_stw_of_not_raAllowed, exec_stw_of_not_alignAllowed,
    fun hra halign k h => exec_stw_of_write_error hra halign (memWriteWord_of_firstUnmapped _ h),
    fun hra halign hmapped =>
      ⟨_, exec_stw_of_mapped hra halign hmapped, storeWord_advance_onlyStored s _ _⟩⟩⟩
  case encoding =>
    have hdecode : decode cfg (encodeWord cfg (.stw rd ra)) = .ok (.stw rd ra) := decode_encodeWord hrd
    cases hpol : cfg.lPolarity <;> rw [encodeWord, hpol] at hdecode <;> exact hdecode

end Sys2Proof.Proofs.LoadStore

/-! PROOFS about every instruction (spec/10_state.md, spec/20_memory.md): the three things one can do when it completes,
and what follows for registers, memory, parameters and pc. -/

namespace Sys2Proof.Proofs.Frame

open Sys2Proof Sys2Proof.Machine Sys2Proof.Proofs.IntegerAlu Sys2Proof.Proofs.Pseudo Sys2Proof.Proofs.Instructions
  Sys2Proof.Proofs.LoadStore

/-! What an instruction can do. -/

/-- A branch target is as odd as the pc it counts from: offsets count half words (R100). -/
theorem relTarget_parity {n : Nat} (pc : Word) (off : BitVec n) : (relTarget pc off).toNat % 2 = pc.toNat % 2 := by
  rw [relTarget, BitVec.toNat_add, BitVec.toNat_mul]
  simp only [BitVec.toNat_ofNat]
  omega

theorem advance_parity (pc : Word) : (pc + 2#32).toNat % 2 = pc.toNat % 2 := by
  rw [BitVec.toNat_add]
  simp only [BitVec.toNat_ofNat]
  omega

theorem branchTarget_parity (c : Bool) {n : Nat} (pc : Word) (off : BitVec n) :
    (if c then relTarget pc off else pc + 2#32).toNat % 2 = pc.toNat % 2 := by
  cases c
  · exact advance_parity pc
  · exact relTarget_parity pc off

/-- An instruction that completes sets pc, or writes its destination and advances, or stores a word and advances; and
only BIN sets pc to an address of its choice. -/
theorem exec_next_cases {i : Instr} {s t : State} (h : exec i s = .next t) :
    (destReg i = none ∧ ∃ p, t = s.setPc p ∧ ((∃ ra, i = .bin ra) ∨ p.toNat % 2 = s.pc.toNat % 2)) ∨
    (∃ rd v, destReg i = some rd ∧ t = s.writeAndAdvance rd v) ∨
    (∃ rd ra, i = .stw rd ra ∧ t = (s.storeWord (s.reg rd) (s.reg ra)).advance) := by
  cases i with
  | ext1 | ext2 | sys => cases h
  | bal off =>
    cases h
    exact .inl ⟨rfl, _, rfl, .inr (relTarget_parity s.pc off)⟩
  | bin ra =>
    cases h
    exact .inl ⟨rfl, _, rfl, .inl ⟨ra, rfl⟩⟩
  | beq ra rb off | bne ra rb off | blt ra rb off =>
    cases h
    exact .inl ⟨rfl, _, branchOn_eq _ ra rb off s, .inr (branchTarget_parity _ s.pc off)⟩
  | ldw rd ra =>
    obtain ⟨-, -, v, -, rfl⟩ := execLdw_eq_next.mp h
    exact .inr (.inl ⟨rd, v, rfl, rfl⟩)
  | stw rd ra =>
    obtain ⟨-, -, -, rfl⟩ := execStw_eq_next.mp h
    exact .inr (.inr ⟨rd, ra, rfl, rfl⟩)
  | mul | imm | adr | and | orr | xor | shl | shr | add | sub | inc | dec | sli | sri =>
    cases h
    exact .inr (.inl ⟨_, _, rfl, rfl⟩)

/-! Registers. -/

/-- Settles O35: what is not the destination is written in none of the three cases. -/
theorem onlyTheDestinationRegisterChanges : Obligations.OnlyTheDestinationRegisterChanges := by
  intro i s t h r hr
  obtain ⟨-, p, rfl, -⟩ | ⟨rd, v, hdest, rfl⟩ | ⟨rd, ra, -, rfl⟩ := exec_next_cases h
  · rfl
  · have hne : r ≠ rd := fun e => hr (by rw [hdest, e])
    rw [writeAndAdvance_reg, setReg_reg_other s rd r v hne]
  · rfl

/-- Settles O34: a write to r0 is discarded (log 27), and every other register is not the destination. -/
theorem aTermThatWritesRegisterZeroChangesNone : Obligations.ATermThatWritesRegisterZeroChangesNone := by
  intro i s t hdest h r
  by_cases hr : r = 0#4
  · rw [hr, reg_zero, reg_zero]
  · refine onlyTheDestinationRegisterChanges i s t h r fun e => hr ?_
    exact (Option.some.inj (hdest.symm.trans e)).symm

/-! Memory, the bookkeeping and the parameters. -/

/-- Settles O37: of the three cases only the store touches memory or `written`. -/
theorem onlyStoresChangeMemory : Obligations.OnlyStoresChangeMemory := by
  intro i s t h hstw
  obtain ⟨-, p, rfl, -⟩ | ⟨rd, v, -, rfl⟩ | ⟨rd, ra, hi, -⟩ := exec_next_cases h
  · exact ⟨fun _ => rfl, rfl⟩
  · exact ⟨fun a => writeAndAdvance_byte? s rd v a, writeAndAdvance_written s rd v⟩
  · exact absurd hi (hstw rd ra)

/-- Settles O39. -/
theorem noStepChangesAParameter : Obligations.NoStepChangesAParameter := by
  intro s t h
  obtain ⟨w, i, -, -, hexec⟩ := step_eq_next.mp h
  obtain ⟨-, p, rfl, -⟩ | ⟨rd, v, -, rfl⟩ | ⟨rd, ra, -, rfl⟩ := exec_next_cases hexec
  · rfl
  · exact writeAndAdvance_cfg s rd v
  · rfl

/-- Settles O41: a store enters its four bytes (`mem_storeWord_written`), any other instruction none (R41). -/
theorem writtenBytesAreThoseOfTheStores : Obligations.WrittenBytesAreThoseOfTheStores := by
  intro s t h n
  obtain ⟨w, i, hfetch, hdecode, hexec⟩ := step_eq_next.mp h
  by_cases hstw : ∃ rd ra, i = .stw rd ra
  · obtain ⟨rd, ra, rfl⟩ := hstw
    obtain ⟨-, -, -, rfl⟩ := execStw_eq_next.mp hexec
    refine (mem_storeWord_written s (s.reg rd) (s.reg ra)).trans (or_congr_right ⟨?_, ?_⟩)
    · rintro ⟨k, hk, hn⟩
      exact ⟨w, rd, ra, k, hfetch, hdecode, hk, hn⟩
    · rintro ⟨w', rd', ra', k, hfetch', hdecode', hk, hn⟩
      obtain rfl : w = w' := Except.ok.inj (hfetch.symm.trans hfetch')
      obtain ⟨rfl, rfl⟩ : rd = rd' ∧ ra = ra' := by simpa [hdecode] using hdecode'
      exact ⟨k, hk, hn⟩
  · rw [(onlyStoresChangeMemory i s t hexec fun rd ra hi => hstw ⟨rd, ra, hi⟩).2]
    refine ⟨.inl, fun hn => hn.resolve_right ?_⟩
    rintro ⟨w', rd, ra, k, hfetch', hdecode', -⟩
    obtain rfl : w = w' := Except.ok.inj (hfetch.symm.trans hfetch')
    exact hstw ⟨rd, ra, Except.ok.inj (hdecode.symm.trans hdecode')⟩

/-- Settles O40: BIN aside, pc moves by an even distance. -/
theorem onlyBinCanMakeThePcOdd : Obligations.OnlyBinCanMakeThePcOdd := by
  intro s t heven h hodd
  obtain ⟨w, i, hfetch, hdecode, hexec⟩ := step_eq_next.mp h
  have hadvance := advance_parity s.pc
  obtain ⟨-, p, rfl, ⟨ra, rfl⟩ | hp⟩ | ⟨rd, v, -, rfl⟩ | ⟨rd, ra, -, rfl⟩ := exec_next_cases hexec
  · exact ⟨w, ra, hfetch, hdecode⟩
  · rw [setPc_pc] at hodd
    omega
  · rw [writeAndAdvance_pc] at hodd
    omega
  · rw [advance_pc, storeWord_pc] at hodd
    omega

/-! A register that is not named. A change of it passes through every operation that does not name it. -/

section

variable (s : State) (r : Reg) (v : Word)

theorem setPc_setReg (p : Word) : (s.setReg r v).setPc p = (s.setPc p).setReg r v := by
  unfold State.setReg
  split <;> rfl

theorem advance_setReg : (s.setReg r v).advance = s.advance.setReg r v := by
  rw [State.advance, setPc_setReg, setReg_pc]
  rfl

theorem setReg_setReg {rd : Reg} (x : Word) (h : r ≠ rd) :
    (s.setReg r v).setReg rd x = (s.setReg rd x).setReg r v := by
  unfold State.setReg
  split
  · rfl
  · split
    · rfl
    · have hne : r.toNat - 1 ≠ rd.toNat - 1 := fun e => h (BitVec.eq_of_toNat_eq (by omega))
      simp only [Vector.set_comm _ _ hne]

theorem writeAndAdvance_setReg {rd : Reg} (x : Word) (h : r ≠ rd) :
    (s.setReg r v).writeAndAdvance rd x = (s.writeAndAdvance rd x).setReg r v := by
  rw [State.writeAndAdvance, setReg_setReg s r v x h, advance_setReg]
  rfl

theorem storeWord_setReg (a x : Word) : (s.setReg r v).storeWord a x = (s.storeWord a x).setReg r v := by
  unfold State.setReg
  split <;> rfl

theorem memReadWord_setReg (a : Word) : memReadWord (s.setReg r v) a = memReadWord s a := by
  simp only [memReadWord, readByte, setReg_cfg, setReg_byte?]

theorem branchOn_setReg (c : Cond) {ra rb : Reg} (off : BitVec 7) (hra : ra ≠ r) (hrb : rb ≠ r) :
    branchOn c ra rb off (s.setReg r v) = (branchOn c ra rb off s).setReg r v := by
  rw [branchOn_eq, branchOn_eq, setReg_reg_other s r ra v hra, setReg_reg_other s r rb v hrb, setReg_pc, setPc_setReg]

end

/-- Settles O36: what an instruction reads is the same, and the change passes through what it writes. -/
theorem aRegisterNotNamedDoesNotMatter : Obligations.ARegisterNotNamedDoesNotMatter := by
  intro i s t r v hr h
  have hreg (q : Reg) (hq : r ≠ q) : (s.setReg r v).reg q = s.reg q := setReg_reg_other s r q v hq.symm
  cases i with
  | ext1 | ext2 | sys => cases h
  | bal off =>
    cases h
    rw [exec_bal, setReg_pc, setPc_setReg]
  | bin ra =>
    have hra : r ≠ ra := by simpa [namedRegs] using hr
    cases h
    rw [exec_bin, hreg ra hra, setPc_setReg]
  | beq ra rb off | bne ra rb off | blt ra rb off =>
    obtain ⟨hra, hrb⟩ : r ≠ ra ∧ r ≠ rb := by simpa [namedRegs] using hr
    cases h
    exact congrArg _ (branchOn_setReg s r v _ off hra.symm hrb.symm)
  | ldw rd ra =>
    obtain ⟨hrd, hra⟩ : r ≠ rd ∧ r ≠ ra := by simpa [namedRegs] using hr
    obtain ⟨hallowed, halign, x, hread, rfl⟩ := execLdw_eq_next.mp h
    rw [← writeAndAdvance_setReg s r v x hrd]
    refine exec_ldw_of_read ?_ ?_ ?_
    · rwa [setReg_cfg]
    · rwa [setReg_cfg, hreg ra hra]
    · rwa [hreg ra hra, memReadWord_setReg]
  | stw rd ra =>
    obtain ⟨hrd, hra⟩ : r ≠ rd ∧ r ≠ ra := by simpa [namedRegs] using hr
    obtain ⟨hallowed, halign, hmapped, rfl⟩ := execStw_eq_next.mp h
    rw [← advance_setReg, ← storeWord_setReg, ← hreg rd hrd, ← hreg ra hra]
    refine exec_stw_of_mapped ?_ ?_ ?_
    · rwa [setReg_cfg]
    · rwa [setReg_cfg, hreg rd hrd]
    · rwa [setReg_cfg, hreg rd hrd]
  | imm rd n | adr rd n =>
    have hrd : r ≠ rd := by simpa [namedRegs] using hr
    cases h
    simp only [exec_imm, exec_adr, setReg_pc, writeAndAdvance_setReg s r v _ hrd]
  | inc rz n | dec rz n =>
    have hrz : r ≠ rz := by simpa [namedRegs] using hr
    cases h
    simp only [exec_inc, exec_dec, hreg rz hrz, writeAndAdvance_setReg s r v _ hrz]
  | mul rd ra | sli rd ra n | sri rd ra n =>
    obtain ⟨hrd, hra⟩ : r ≠ rd ∧ r ≠ ra := by simpa [namedRegs] using hr
    cases h
    simp only [exec_mul, exec_sli, exec_sri, setReg_cfg, hreg rd hrd, hreg ra hra, writeAndAdvance_setReg s r v _ hrd]
  | and rd ra rb | orr rd ra rb | xor rd ra rb | shl rd ra rb | shr rd ra rb | add rd ra rb | sub rd ra rb =>
    obtain ⟨hrd, hra, hrb⟩ : r ≠ rd ∧ r ≠ ra ∧ r ≠ rb := by simpa [namedRegs] using hr
    cases h
    simp only [exec_and, exec_orr, exec_xor, exec_shl, exec_shr, exec_add, exec_sub, setReg_cfg, hreg ra hra,
      hreg rb hrb, writeAndAdvance_setReg s r v _ hrd]

end Sys2Proof.Proofs.Frame

/-! PROOFS about the machine from before its first step to its end (spec/10_state.md, spec/70_reset_and_hazards.md): the
bytes the host places, the invariant, the halt and the outcomes of a run. -/

namespace Sys2Proof.Proofs.Run

open Sys2Proof Sys2Proof.Machine Sys2Proof.Proofs.Encoding Sys2Proof.Proofs.Step Sys2Proof.Proofs.Instructions
  Sys2Proof.Proofs.LoadStore Sys2Proof.Proofs.Frame

/-! The invariant of the machine. -/

theorem machineInv_storeByte {s : State} (a : Word) (b : Byte) (h : MachineInv s) : MachineInv (s.storeByte a b) := by
  obtain ⟨hmem, hrising, hvalue⟩ := h
  refine ⟨storeByte_mem_wf s a b hmem, addrInsert_rising _ _ a.isLt none (by simp) hrising, fun n hn => ?_⟩
  rw [storeByte_mem, memLookup_memInsert]
  split
  · rfl
  · next hne => exact hvalue n (((mem_addrInsert _ _ _).mp hn).resolve_left hne)

theorem machineInv_storeWord {s : State} (a v : Word) (h : MachineInv s) : MachineInv (s.storeWord a v) :=
  machineInv_storeByte _ _ (machineInv_storeByte _ _ (machineInv_storeByte _ _ (machineInv_storeByte _ _ h)))

/-- The invariant does not look at registers, pc or parameters. -/
theorem machineInv_of_same {s t : State} (hmem : t.mem = s.mem) (hwritten : t.written = s.written)
    (h : MachineInv s) : MachineInv t := by
  rwa [MachineInv, hmem, hwritten]

/-- Settles O30: of what an instruction can do (`exec_next_cases`) only the store concerns the invariant. -/
theorem everyStepKeepsTheInvariant : Obligations.EveryStepKeepsTheInvariant := by
  intro s t hinv h
  obtain ⟨w, i, -, -, hexec⟩ := step_eq_next.mp h
  obtain ⟨-, p, rfl, -⟩ | ⟨rd, v, -, rfl⟩ | ⟨rd, ra, -, rfl⟩ := exec_next_cases hexec
  · exact machineInv_of_same rfl rfl hinv
  · exact machineInv_of_same (writeAndAdvance_mem s rd v) (writeAndAdvance_written s rd v) hinv
  · exact machineInv_of_same rfl rfl (machineInv_storeWord (s.reg rd) (s.reg ra) hinv)

/-- Settles O32: placing bytes keeps memory canonical, and no byte counts as written. -/
theorem everyBootStateHasTheInvariant : Obligations.EveryBootStateHasTheInvariant := by
  intro draw cfg image
  have hwritten : (bootState draw cfg image).written = [] := placeBytes_written image _ _
  refine ⟨placeBytes_mem_wf image _ _ (reset_mem_wf draw cfg), ?_, ?_⟩
  · rw [hwritten]; rfl
  · simp [hwritten]

/-- Settles O31: reset is the boot state of the empty image. -/
theorem resetHasTheInvariant : Obligations.ResetHasTheInvariant :=
  everyBootStateHasTheInvariant (Vector.replicate 15 0#32) Config.default []

/-! Before the first step. -/

/-- Settles O42. -/
theorem resetStartsAtAddressZero : Obligations.ResetStartsAtAddressZero := by
  refine ⟨rfl, fun draw cfg => ⟨rfl, reg_zero _, fun k => ?_, fun _ => rfl, rfl⟩⟩
  have hnum : (BitVec.ofNat 4 (k.val + 1)).toNat = k.val + 1 := by
    rw [BitVec.toNat_ofNat]
    omega
  simp [State.reg, State.resetWith, hnum]

/-- The distance from an address to another one is one more than from the next address. -/
theorem sub_toNat_eq_succ {a b : Word} (h : b ≠ a) : (b - a).toNat = (b - (a + 1#32)).toNat + 1 := by
  have hne : b.toNat ≠ a.toNat := fun e => h (BitVec.eq_of_toNat_eq e)
  have ha := a.isLt
  have hb := b.isLt
  rw [BitVec.toNat_sub, BitVec.toNat_sub, BitVec.toNat_add]
  simp only [BitVec.toNat_ofNat]
  omega

/-- The bytes after the host placed some: those placed, each at its distance from the first, and else what was there. -/
theorem placeBytes_byte? (bs : List Byte) (s : State) (a b : Word) (h : bs.length ≤ 2 ^ 32) :
    (s.placeBytes a bs).byte? b = bs[(b - a).toNat]?.or (s.byte? b) := by
  induction bs generalizing s a with
  | nil => rfl
  | cons x rest ih =>
    rw [List.length_cons] at h
    rw [State.placeBytes, ih (s.placeByte a x) (a + 1#32) (by omega), placeByte_byte?]
    by_cases hb : b = a
    · subst hb
      have hlast : rest.length ≤ (b - (b + 1#32)).toNat := by
        have := b.isLt
        rw [BitVec.toNat_sub, BitVec.toNat_add]
        simp only [BitVec.toNat_ofNat]
        omega
      rw [List.getElem?_eq_none hlast, BitVec.sub_self]
      simp
    · rw [sub_toNat_eq_succ hb, List.getElem?_cons_succ, if_neg hb]

/-- Settles O43 (D5, log 3). -/
theorem theImageIsPlacedAtAddressZero : Obligations.TheImageIsPlacedAtAddressZero := by
  intro draw cfg image hlen
  refine ⟨placeBytes_pc image _ _, fun a => ?_⟩
  rw [bootState, State.loadImage, placeBytes_byte? image _ _ _ hlen, BitVec.sub_zero]
  exact Option.or_none

/-- Placing a half word gives its two bytes (R48, R187). -/
theorem placeHalf_byte? (s : State) (a : Word) (w : Half) :
    (s.placeHalf a w).byte? a = some (halfBytes s.cfg.endian w).1 ∧
      (s.placeHalf a w).byte? (a + 1#32) = some (halfBytes s.cfg.endian w).2 := by
  constructor <;> simp [State.placeHalf, State.placeBytes, placeByte_byte?]

/-! The state in which a given word is fetched next (log 32). -/

theorem isMapped_mapByte_self (cfg : Config) (a : Word) : isMapped (mapByte cfg a) a = true := by
  unfold mapByte
  split
  · assumption
  · simp [isMapped]

theorem isMapped_mapByte {cfg : Config} (a : Word) {b : Word} (h : isMapped cfg b = true) :
    isMapped (mapByte cfg a) b = true := by
  unfold mapByte
  split
  · exact h
  · simp only [isMapped, List.any_cons, Bool.or_eq_true]
    exact .inr h

/-- Mapping a byte changes MEM_REGIONS only. -/
theorem mapByte_fetchAlign (cfg : Config) (a : Word) : (mapByte cfg a).fetchAlign = cfg.fetchAlign := by
  unfold mapByte
  split <;> rfl

theorem mapByte_smc (cfg : Config) (a : Word) : (mapByte cfg a).smc = cfg.smc := by
  unfold mapByte
  split <;> rfl

section

variable (s : State) (w : Half)

theorem readyToFetch_cfg : (s.readyToFetch w).cfg =
    mapByte (mapByte s.cfg (s.pc &&& 0xFFFFFFFE#32)) ((s.pc &&& 0xFFFFFFFE#32) + 1#32) :=
  placeBytes_cfg _ _ _

theorem readyToFetch_fetchAlign : (s.readyToFetch w).cfg.fetchAlign = s.cfg.fetchAlign := by
  rw [readyToFetch_cfg, mapByte_fetchAlign, mapByte_fetchAlign]

theorem readyToFetch_pc : (s.readyToFetch w).pc = (match s.cfg.fetchAlign with
    | .fault => s.pc &&& 0xFFFFFFFE#32
    | .ignoreBit0 => s.pc) :=
  placeBytes_pc _ _ _

theorem readyToFetch_written : (s.readyToFetch w).written = (match s.cfg.smc with
    | .fault => s.written.filter fun k =>
        k != (s.pc &&& 0xFFFFFFFE#32).toNat && k != ((s.pc &&& 0xFFFFFFFE#32) + 1#32).toNat
    | .coherent => s.written) :=
  placeBytes_written _ _ _

theorem readyToFetch_fetchAddr : fetchAddr (s.readyToFetch w) = s.pc &&& 0xFFFFFFFE#32 := by
  rw [fetchAddr, readyToFetch_fetchAlign, readyToFetch_pc]
  cases s.cfg.fetchAlign <;> rfl

theorem readyToFetch_aligned :
    (s.readyToFetch w).cfg.fetchAlign = .ignoreBit0 ∨ (s.readyToFetch w).pc.toNat % 2 = 0 := by
  rw [readyToFetch_fetchAlign, readyToFetch_pc]
  cases s.cfg.fetchAlign with
  | ignoreBit0 => exact .inl rfl
  | fault => exact .inr (by simp only [clearBit0_toNat]; omega)

theorem readyToFetch_mapped : AllMapped (s.readyToFetch w).cfg (s.pc &&& 0xFFFFFFFE#32) 2 := by
  rw [readyToFetch_cfg]
  intro k hk
  match k, hk with
  | 0, _ =>
    rw [BitVec.add_zero]
    exact isMapped_mapByte _ (isMapped_mapByte_self _ _)
  | 1, _ => exact isMapped_mapByte_self _ _

theorem readyToFetch_unmodified : (s.readyToFetch w).cfg.smc = .coherent ∨
    ((s.pc &&& 0xFFFFFFFE#32).toNat ∉ (s.readyToFetch w).written ∧
      ((s.pc &&& 0xFFFFFFFE#32) + 1#32).toNat ∉ (s.readyToFetch w).written) := by
  rw [readyToFetch_cfg, mapByte_smc, mapByte_smc, readyToFetch_written]
  cases s.cfg.smc with
  | coherent => exact .inl rfl
  | fault => exact .inr ⟨by simp, by simp⟩

end

/-- Settles O44: every check of the fetch passes, and the two bytes make the word (`joinHalf_halfBytes`). -/
theorem withFetchWordIsFetchedNext : Obligations.WithFetchWordIsFetchedNext := by
  intro s n
  have hword : BitVec.ofNat 16 (n % 2 ^ 16) = BitVec.ofNat 16 n := BitVec.eq_of_toNat_eq (by simp)
  rw [State.withFetchWord, hword]
  generalize BitVec.ofNat 16 n = w
  rw [fetch_eq_ok, readyToFetch_fetchAddr]
  refine ⟨readyToFetch_aligned s w, readyToFetch_mapped s w, readyToFetch_unmodified s w, _, _,
    (placeHalf_byte? _ _ w).1, (placeHalf_byte? _ _ w).2, ?_⟩
  rw [readyToFetch_cfg, joinHalf_halfBytes]

/-! The end of a run (R228, D25). -/

/-- The word 0x0000 is a branch to itself. -/
theorem exec_bal_zero (s : State) : exec (.bal 0#12) s = .next s := by
  have hself : relTarget s.pc 0#12 = s.pc := by
    rw [relTarget, show signExt 0#12 = 0#32 from rfl, BitVec.mul_zero, BitVec.add_zero]
  rw [exec_bal, hself]
  rfl

theorem decode_zero (cfg : Config) : decode cfg 0x0000#16 = .ok (.bal 0#12) :=
  decode_encodeWord (cfg := cfg) (i := .bal 0#12) trivial

theorem step_of_isHalted {s : State} (h : isHalted s = true) : step s = .next s := by
  unfold isHalted at h
  obtain ⟨-, hword⟩ := Bool.and_eq_true_iff.mp h
  cases hfetch : fetch s with
  | error f => simp [hfetch] at hword
  | ok w =>
    obtain rfl : w = 0x0000#16 := by simpa [hfetch] using hword
    rw [step_of_fetch hfetch (decode_zero s.cfg), exec_bal_zero]

theorem run_zero (s : State) : Sys2Proof.core.run 0 s = .next s := rfl

theorem run_succ {s t : State} (n : Nat) (h : step s = .next t) :
    Sys2Proof.core.run (n + 1) s = Sys2Proof.core.run n t := by
  have hstep : Sys2Proof.core.step s = .next t := h
  simp only [Host.Core.run, hstep]

/-- Settles O45, by induction on the number of steps. -/
theorem aHaltedMachineStaysAsItIs : Obligations.AHaltedMachineStaysAsItIs := by
  intro s h n
  induction n with
  | zero => exact run_zero s
  | succ n ih => rw [run_succ n (step_of_isHalted h), ih]

/-! The outcome of a run, one equation for each way it can go. -/

section

variable {s : State}

theorem runFor_of_isHalted (n : Nat) (h : isHalted s = true) : runFor n s = .halted s := by
  unfold runFor
  simp [h]

theorem runFor_zero (h : isHalted s = false) : runFor 0 s = .stillRunning s := by
  simp [runFor, h]

theorem runFor_succ (n : Nat) (h : isHalted s = false) : runFor (n + 1) s = (match step s with
    | .next t => runFor n t
    | .fault f => .faulted f s
    | .refused r => .refused r) := by
  rw [runFor, h]
  rfl

end

/-- Settles O46, by induction on the number of steps: a run that goes on is the run of one step fewer from the next
state. -/
theorem aRunStopsWhereItsOutcomeSays : Obligations.ARunStopsWhereItsOutcomeSays := by
  intro n s u
  induction n generalizing s with
  | zero =>
    cases hhalt : isHalted s with
    | true =>
      rw [runFor_of_isHalted 0 hhalt]
      refine ⟨nofun, ?_, nofun⟩
      rintro ⟨rfl⟩
      exact ⟨hhalt, 0, le_rfl, run_zero _⟩
    | false =>
      rw [runFor_zero hhalt]
      refine ⟨nofun, nofun, ?_⟩
      rintro ⟨rfl⟩
      exact ⟨hhalt, run_zero _⟩
  | succ n ih =>
    cases hhalt : isHalted s with
    | true =>
      rw [runFor_of_isHalted _ hhalt]
      refine ⟨nofun, ?_, nofun⟩
      rintro ⟨rfl⟩
      exact ⟨hhalt, 0, Nat.zero_le _, run_zero _⟩
    | false =>
      rw [runFor_succ n hhalt]
      cases hstep : step s with
      | refused r => exact ⟨nofun, nofun, nofun⟩
      | fault f =>
        refine ⟨?_, nofun, nofun⟩
        rintro g ⟨rfl, rfl⟩
        exact ⟨hstep, 0, Nat.zero_le _, run_zero _⟩
      | next t =>
        obtain ⟨hfault, hhalted, hrunning⟩ := ih t
        have hlater {P : Prop} (h : P ∧ ∃ k ≤ n, Sys2Proof.core.run k t = .next u) :
            P ∧ ∃ k ≤ n + 1, Sys2Proof.core.run k s = .next u := by
          obtain ⟨hu, k, hk, hrun⟩ := h
          exact ⟨hu, k + 1, Nat.succ_le_succ hk, (run_succ k hstep).trans hrun⟩
        refine ⟨fun f h => hlater (hfault f h), fun h => hlater (hhalted h), fun h => ?_⟩
        obtain ⟨hu, hrun⟩ := hrunning h
        exact ⟨hu, (run_succ n hstep).trans hrun⟩

end Sys2Proof.Proofs.Run

/-! PROOFS about the assembler (spec/46_pseudo.md R171, R172, R188): which lines it accepts, and the words it
answers. -/

namespace Sys2Proof.Proofs.Assembler

open Sys2Proof Sys2Proof.Machine Sys2Proof.Proofs.Encoding Sys2Proof.Proofs.Instructions

/-! The offset of a label (R100). -/

/-- Twice an offset of at most 31 bits fits 32 bits as a signed number. -/
theorem two_mul_signExt_toInt {n : Nat} (hn : n ≤ 31) (off : BitVec n) :
    (2#32 * signExt off).toInt = 2 * off.toInt := by
  have hpow : (2 : Int) ^ (n - 1) ≤ 2 ^ 30 := by exact_mod_cast Nat.pow_le_pow_right (by decide) (by omega)
  have hlow := off.le_toInt
  have hhigh := off.toInt_lt
  rw [BitVec.toInt_mul, signExt_toInt (by omega), show (2#32).toInt = 2 from rfl]
  exact Int.bmod_eq_of_le (by omega) (by omega)

theorem relTarget_eq_iff {n : Nat} (hn : n ≤ 31) {here label : Word} {off : BitVec n} :
    relTarget here off = label ↔ (label - here).toInt = 2 * off.toInt := by
  rw [← two_mul_signExt_toInt hn, BitVec.toInt_inj, relTarget]
  constructor
  · rintro rfl
    rw [BitVec.add_comm, BitVec.add_sub_cancel]
  · intro h
    rw [← h, BitVec.add_comm, BitVec.sub_add_cancel]

/-- The labels in reach of an n-bit offset (R172). -/
theorem exists_offsetField_iff {n : Nat} {here label : Word} :
    (∃ off, offsetField n here label = .ok off) ↔ (label - here).toInt % 2 = 0 ∧
      -(2 ^ (n - 1) : Int) ≤ (label - here).toInt / 2 ∧ (label - here).toInt / 2 < (2 ^ (n - 1) : Int) := by
  simp only [offsetField]
  split
  · next h => exact iff_of_true ⟨_, rfl⟩ h
  · next h => exact iff_of_false nofun h

theorem offsetField_eq_ok_iff {n : Nat} (hpos : 0 < n) (hn : n ≤ 31) {here label : Word} {off : BitVec n} :
    offsetField n here label = .ok off ↔ relTarget here off = label := by
  rw [relTarget_eq_iff hn]
  constructor
  · intro h
    obtain ⟨heven, hlow, hhigh⟩ := exists_offsetField_iff.mp ⟨off, h⟩
    obtain rfl : BitVec.ofInt n ((label - here).toInt / 2) = off := by
      simpa only [offsetField, heven, hlow, hhigh, and_self, if_true, Except.ok.injEq] using h
    rw [BitVec.toInt_ofInt_eq_self hpos hlow hhigh]
    omega
  · intro h
    have hhalf : (label - here).toInt / 2 = off.toInt := by omega
    have hlow := off.le_toInt
    have hhigh := off.toInt_lt
    have heven : (label - here).toInt % 2 = 0 := by omega
    simp only [offsetField, hhalf, heven, hlow, hhigh, and_self, if_true, BitVec.ofInt_toInt]

/-- Settles O48: `offsetField_eq_ok_iff` at the three widths (D8, D4). -/
theorem anOffsetFieldReachesExactlyItsLabel : Obligations.AnOffsetFieldReachesExactlyItsLabel :=
  fun _ _ => ⟨fun _ => offsetField_eq_ok_iff (by decide) (by decide),
    fun _ => offsetField_eq_ok_iff (by decide) (by decide), fun _ => offsetField_eq_ok_iff (by decide) (by decide)⟩

/-! The words of an accepted line (R188). -/

theorem all_wellFormed_iff {cfg : Config} {is : List Instr} :
    is.all (wellFormed cfg) = true ↔ ∀ i ∈ is, HasEncoding cfg i := by
  simp only [List.all_eq_true, wellFormed_iff_hasEncoding]

/-- Settles O49: each instruction of the line can be encoded, so its word decodes to it (`decode_encodeWord`). -/
theorem assembledLinesDecodeToTheirInstructions : Obligations.AssembledLinesDecodeToTheirInstructions := by
  intro cfg here l ws h
  obtain ⟨is, hline, -, hwf, rfl⟩ := assembleLine_eq_ok.mp h
  refine ⟨is, is.map (encodeWord cfg), hline, rfl, ?_⟩
  rw [List.map_map]
  exact List.map_congr_left fun i hi => decode_encodeWord (all_wellFormed_iff.mp hwf i hi)

/-! Which lines are accepted (R172). -/

/-- The assembler accepts a line. -/
def Accepts (cfg : Config) (here : Word) (l : Line) : Prop :=
  ∃ ws, assembleLine cfg here l = .ok ws

/-- A label stands at an even distance, of at most `n` half words below and less than `n` above. -/
def InReach (start label : Word) (n : Int) : Prop :=
  (label - start).toInt % 2 = 0 ∧ -n ≤ (label - start).toInt / 2 ∧ (label - start).toInt / 2 < n

/-- The prose allows an instruction and the table can encode it. -/
def Allowed (cfg : Config) (i : Instr) : Prop :=
  proseForbids i = false ∧ HasEncoding cfg i

section

variable {cfg : Config} {here : Word} {l : Line}

/-- A line is accepted when it stands for instructions that are all allowed. -/
theorem accepts_iff : Accepts cfg here l ↔ ∃ is, lineInstrs here l = .ok is ∧ ∀ i ∈ is, Allowed cfg i := by
  simp only [Accepts, Allowed, assembleLine_eq_ok, List.any_eq_false, all_wellFormed_iff, Bool.not_eq_true]
  constructor
  · rintro ⟨_, is, hline, hprose, henc, -⟩
    exact ⟨is, hline, fun i hi => ⟨hprose i hi, henc i hi⟩⟩
  · rintro ⟨is, hline, h⟩
    exact ⟨_, is, hline, fun i hi => (h i hi).1, fun i hi => (h i hi).2, rfl⟩

theorem accepts_iff_of_ok {is : List Instr} (hline : lineInstrs here l = .ok is) :
    Accepts cfg here l ↔ ∀ i ∈ is, Allowed cfg i := by
  simp [accepts_iff, hline]

/-- A line that stands for one instruction that the prose does not forbid. -/
theorem accepts_iff_of_single {i : Instr} (hline : lineInstrs here l = .ok [i]) (hprose : proseForbids i = false) :
    Accepts cfg here l ↔ HasEncoding cfg i := by
  simp [accepts_iff_of_ok hline, Allowed, hprose]

theorem not_accepts_of_error {e : AsmError} (hline : lineInstrs here l = .error e) : ¬ Accepts cfg here l := by
  simp [accepts_iff, hline]

/-- A line whose instructions hold a field that not every operand fits. -/
theorem accepts_iff_of_field {α : Type} {field : Except AsmError α} {is : α → List Instr}
    (hline : lineInstrs here l = field >>= fun x => pure (is x)) :
    Accepts cfg here l ↔ ∃ x, field = .ok x ∧ ∀ i ∈ is x, Allowed cfg i := by
  rw [accepts_iff, hline]
  cases field <;> simp [bind, Except.bind, pure, Except.pure]

/-- A line that stands for one instruction with such a field. -/
theorem accepts_iff_of_field_single {α : Type} {field : Except AsmError α} {i : α → Instr}
    (hline : lineInstrs here l = field >>= fun x => pure [i x]) (hprose : ∀ x, proseForbids (i x) = false) :
    Accepts cfg here l ↔ ∃ x, field = .ok x ∧ HasEncoding cfg (i x) := by
  simp [accepts_iff_of_field hline, Allowed, hprose]

/-- A line that reaches a label: the other operands count by themselves, the label by its distance. -/
theorem accepts_iff_of_offset {n : Nat} {k : Int} {start label : Word} {is : BitVec n → List Instr} {P : Prop}
    (hk : (2 : Int) ^ (n - 1) = k)
    (hline : lineInstrs here l = offsetField n start label >>= fun off => pure (is off))
    (hP : ∀ off, (∀ i ∈ is off, Allowed cfg i) ↔ P) : Accepts cfg here l ↔ P ∧ InReach start label k := by
  subst hk
  simp only [accepts_iff_of_field hline, hP, exists_and_right, exists_offsetField_iff, InReach]
  exact and_comm

end

/-! The immediates that fit their fields. -/

/-- The unsigned operands of five bits that leave the field nonzero. -/
theorem exists_unsignedField_ne_zero_iff {n : Nat} :
    (∃ x, unsignedField 5 n = .ok x ∧ x ≠ 0#5) ↔ 1 ≤ n ∧ n ≤ 31 := by
  unfold unsignedField
  split
  · next h =>
    have hzero : BitVec.ofNat 5 n = 0#5 ↔ n = 0 := by
      rw [← BitVec.toNat_inj]
      simp only [BitVec.toNat_ofNat]
      omega
    simp only [Except.ok.injEq, exists_eq_left', ne_eq, hzero]
    omega
  · next h =>
    simp only [reduceCtorEq, false_and, exists_false, false_iff]
    omega

theorem exists_unsignedField_four_iff {n : Nat} : (∃ x, unsignedField 4 n = .ok x) ↔ n ≤ 15 := by
  unfold unsignedField
  split
  · next h => exact iff_of_true ⟨_, rfl⟩ (by omega)
  · next h => exact iff_of_false nofun (by omega)

theorem exists_signedField_five_iff {v : Int} : (∃ x, signedField 5 v = .ok x) ↔ -16 ≤ v ∧ v ≤ 15 := by
  unfold signedField
  split
  · next h => exact iff_of_true ⟨_, rfl⟩ (by omega)
  · next h => exact iff_of_false nofun (by omega)

/-- An EXT operand has eight bits, one of whose two digits is 0; it stands then for an instruction with an encoding. -/
theorem exists_extInstr_iff {cfg : Config} {n : Nat} :
    (∃ i, extInstr n = .ok i ∧ ∀ j ∈ [i], Allowed cfg j) ↔ n ≤ 255 ∧ (n / 16 = 0 ∨ n % 16 = 0) := by
  simp only [List.forall_mem_singleton]
  unfold extInstr
  split
  · next h => exact iff_of_true ⟨_, rfl, rfl, trivial⟩ (by omega)
  · next h =>
    split
    · next hhigh =>
      have hne : BitVec.ofNat 4 (n / 16) ≠ 0#4 := by
        rw [ne_eq, ← BitVec.toNat_inj]
        simp only [BitVec.toNat_ofNat]
        omega
      exact iff_of_true ⟨_, rfl, rfl, hne⟩ (by omega)
    · next hhigh => exact iff_of_false nofun (by omega)

/-! The source forms. -/

theorem sp_ne_zero : Reg.sp ≠ 0#4 := by decide

theorem lr_ne_zero : Reg.lr ≠ 0#4 := by decide

section

variable (cfg : Config) (here t : Word) (rd ra rb rz : Reg) (n : Nat)

theorem accepts_bal : Accepts cfg here (.bal t) ↔ InReach here t 2048 := by
  rw [accepts_iff_of_offset (P := True) (is := fun off => [.bal off]) rfl rfl]
  · exact and_iff_right trivial
  · simp [Allowed, proseForbids, HasEncoding]

theorem accepts_adr : Accepts cfg here (.adr rd t) ↔ rd ≠ 0#4 ∧ InReach here t 512 :=
  accepts_iff_of_offset (is := fun off => [.adr rd off]) rfl rfl fun off => by
    simp [Allowed, proseForbids, HasEncoding]

/-- A line of a conditional branch on any condition. -/
theorem accepts_condBranch {l : Line} {c : Cond}
    (hline : lineInstrs here l = offsetField 7 here t >>= fun off => pure [condBranch c ra rb off]) :
    Accepts cfg here l ↔ (∃ p, pairRegs cfg.pairMap p = (ra, rb)) ∧ InReach here t 64 :=
  accepts_iff_of_offset rfl hline fun off => by
    cases c <;> simp [Allowed, proseForbids, HasEncoding, condBranch]

theorem accepts_blk : Accepts cfg here (.blk t) ↔ InReach (here + 2#32) t 2048 := by
  rw [accepts_iff_of_offset (P := True) (is := fun off => [.adr Reg.lr 2#10, .bal off]) rfl rfl]
  · exact and_iff_right trivial
  · simp [Allowed, proseForbids, HasEncoding, lr_ne_zero]

theorem accepts_imm32 (value : Word) : Accepts cfg here (.imm32 rd value t) ↔ rd ≠ 0#4 ∧ InReach here t 512 :=
  accepts_iff_of_offset (is := fun off => [.adr rd off, .ldw rd rd]) rfl rfl fun off => by
    simp [Allowed, proseForbids, HasEncoding]

/-- INC, DEC, SLI and SRI: the other operands count by themselves, the immediate by its range. -/
theorem accepts_immediate {l : Line} {i : BitVec 5 → Instr} {P : Prop}
    (hline : lineInstrs here l = unsignedField 5 n >>= fun x => pure [i x]) (hprose : ∀ x, proseForbids (i x) = false)
    (henc : ∀ x, HasEncoding cfg (i x) ↔ P ∧ x ≠ 0#5) : Accepts cfg here l ↔ P ∧ 1 ≤ n ∧ n ≤ 31 := by
  simp only [accepts_iff_of_field_single hline hprose, henc, and_left_comm (b := P), exists_and_left,
    exists_unsignedField_ne_zero_iff]

theorem accepts_inc : Accepts cfg here (.inc rz n) ↔ rz ≠ 0#4 ∧ 1 ≤ n ∧ n ≤ 31 :=
  accepts_immediate cfg here n (i := fun x => .inc rz x) rfl (fun _ => rfl) fun _ => Iff.rfl

theorem accepts_dec : Accepts cfg here (.dec rz n) ↔ rz ≠ 0#4 ∧ 1 ≤ n ∧ n ≤ 31 :=
  accepts_immediate cfg here n (i := fun x => .dec rz x) rfl (fun _ => rfl) fun _ => Iff.rfl

theorem accepts_sli : Accepts cfg here (.sli rd ra n) ↔ rd ≠ 0#4 ∧ ra ≠ 0#4 ∧ 1 ≤ n ∧ n ≤ 31 :=
  (accepts_immediate cfg here n (i := fun x => .sli rd ra x) rfl (fun _ => rfl) fun _ => and_assoc.symm).trans and_assoc

theorem accepts_sri : Accepts cfg here (.sri rd ra n) ↔ rd ≠ 0#4 ∧ ra ≠ 0#4 ∧ 1 ≤ n ∧ n ≤ 31 :=
  (accepts_immediate cfg here n (i := fun x => .sri rd ra x) rfl (fun _ => rfl) fun _ => and_assoc.symm).trans and_assoc

theorem accepts_mul (rz' : Reg) : Accepts cfg here (.mul rz rz' ra) ↔ rz = rz' ∧ rz ≠ 0#4 ∧ ra ≠ 0#4 := by
  by_cases h : rz = rz'
  · rw [accepts_iff_of_single (i := .mul rz ra) (by simp [lineInstrs, h]) rfl]
    exact (and_iff_right h).symm
  · exact iff_of_false (not_accepts_of_error (e := .mulOperands) (by simp [lineInstrs, h])) fun hand => h hand.1

theorem accepts_ldw : Accepts cfg here (.ldw rd ra) ↔ rd ≠ 0#4 ∧ ra ≠ 0#4 := by
  rw [accepts_iff_of_ok (is := [.ldw rd ra]) rfl]
  simp only [List.forall_mem_singleton, Allowed, proseForbids, HasEncoding, beq_eq_false_iff_ne]
  exact and_comm

theorem accepts_stw : Accepts cfg here (.stw rd ra) ↔ rd ≠ 0#4 ∧ ra ≠ 0#4 := by
  rw [accepts_iff_of_ok (is := [.stw rd ra]) rfl]
  simp only [List.forall_mem_singleton, Allowed, proseForbids, HasEncoding, beq_eq_false_iff_ne]
  exact and_comm

theorem accepts_imm (v : Int) : Accepts cfg here (.imm rd v) ↔ rd ≠ 0#4 ∧ -16 ≤ v ∧ v ≤ 15 := by
  rw [accepts_iff_of_field_single (i := fun x => .imm rd x) rfl fun _ => rfl]
  simp only [HasEncoding, exists_and_right, exists_signedField_five_iff]
  exact and_comm

theorem accepts_ext : Accepts cfg here (.ext n) ↔ n ≤ 255 ∧ (n / 16 = 0 ∨ n % 16 = 0) :=
  (accepts_iff_of_field (is := fun i => [i]) rfl).trans exists_extInstr_iff

theorem accepts_sys : Accepts cfg here (.sys n) ↔ n ≤ 15 := by
  rw [accepts_iff_of_field_single (i := fun x => .sys x) rfl fun _ => rfl]
  simp only [HasEncoding, and_true, exists_unsignedField_four_iff]

/-- `psh` and `pop`: the composition for each register of the list is allowed when that is not r0. -/
theorem accepts_list {l : Line} {rs : List Reg} {is : Reg → List Instr} (hempty : rs = [] → ¬ Accepts cfg here l)
    (hline : rs ≠ [] → lineInstrs here l = .ok (rs.flatMap is))
    (hallowed : ∀ r, (∀ i ∈ is r, Allowed cfg i) ↔ r ≠ 0#4) : Accepts cfg here l ↔ rs ≠ [] ∧ 0#4 ∉ rs := by
  by_cases h : rs = []
  · exact iff_of_false (hempty h) fun hand => hand.1 h
  · rw [accepts_iff_of_ok (hline h), List.forall_mem_flatMap, and_iff_right h]
    simp only [hallowed]
    exact ⟨fun hall hmem => hall _ hmem rfl, fun hno r hr hzero => hno (hzero ▸ hr)⟩

theorem accepts_psh (rs : List Reg) : Accepts cfg here (.psh rs) ↔ rs ≠ [] ∧ 0#4 ∉ rs :=
  accepts_list cfg here (is := fun r => [.dec Reg.sp 4#5, .stw Reg.sp r])
    (fun h => not_accepts_of_error (e := .noRegister) (by simp [lineInstrs, h]))
    (fun h => by simp [lineInstrs, h, pshInstrs]) fun r => by
      simp [Allowed, proseForbids, HasEncoding, sp_ne_zero]

theorem accepts_pop (rs : List Reg) : Accepts cfg here (.pop rs) ↔ rs ≠ [] ∧ 0#4 ∉ rs :=
  accepts_list cfg here (is := fun r => [.ldw r Reg.sp, .inc Reg.sp 4#5])
    (fun h => not_accepts_of_error (e := .noRegister) (by simp [lineInstrs, h]))
    (fun h => by simp [lineInstrs, h, popInstrs]) fun r => by
      simp [Allowed, proseForbids, HasEncoding, sp_ne_zero]

end

/-- Settles O50: one lemma for each source form or group of forms. -/
theorem anAssemblerAcceptsExactlyTheseOperands : Obligations.AnAssemblerAcceptsExactlyTheseOperands := by
  intro cfg here accepts inReach pair
  -- the forms that stand for one instruction with any operands, or with any but destination r0
  have hany {l : Line} {i : Instr} (hline : lineInstrs here l = .ok [i]) (hprose : proseForbids i = false)
      (henc : HasEncoding cfg i) : accepts l := (accepts_iff_of_single hline hprose).mpr henc
  have hdest {l : Line} {rd : Reg} (i : Instr) (hline : lineInstrs here l = .ok [i]) (hprose : proseForbids i = false)
      (henc : HasEncoding cfg i ↔ rd ≠ 0#4) : accepts l ↔ rd ≠ 0#4 := (accepts_iff_of_single hline hprose).trans henc
  have hdata {l : Line} (hline : lineInstrs here l = .ok []) : accepts l := (accepts_iff_of_ok hline).mpr (by simp)
  refine ⟨accepts_bal cfg here, fun ra => hany (i := .bin ra) rfl rfl trivial, fun ra rb t => ⟨?beq, ?bne, ?blt⟩,
    fun rd t => accepts_adr cfg here t rd, fun rd ra rb => ⟨?and, ?orr, ?xor, ?shl, ?shr, ?add, ?sub⟩,
    fun rz n => ⟨accepts_inc cfg here rz n, accepts_dec cfg here rz n⟩,
    fun rd ra n => ⟨accepts_sli cfg here rd ra n, accepts_sri cfg here rd ra n⟩,
    fun rz rz' ra => accepts_mul cfg here ra rz rz',
    fun rd ra => ⟨accepts_ldw cfg here rd ra, accepts_stw cfg here rd ra⟩,
    accepts_imm cfg here, accepts_ext cfg here, accepts_sys cfg here,
    hany (i := .bal 0#12) rfl rfl trivial, hany (i := .bal 1#12) rfl rfl trivial,
    hany (i := .bin Reg.lr) rfl rfl trivial, hany (i := .bin Reg.zero) rfl rfl trivial,
    accepts_blk cfg here, fun rd ra => ⟨?mov, ?neg⟩, fun rd v t => accepts_imm32 cfg here t rd v,
    fun rs => ⟨accepts_psh cfg here rs, accepts_pop cfg here rs⟩, fun v => hdata rfl, fun v => hdata rfl⟩
  case beq => exact accepts_condBranch cfg here t ra rb (c := .eq) rfl
  case bne => exact accepts_condBranch cfg here t ra rb (c := .ne) rfl
  case blt => exact accepts_condBranch cfg here t ra rb (c := .lt) rfl
  case and => exact hdest (.and rd ra rb) rfl rfl Iff.rfl
  case orr => exact hdest (.orr rd ra rb) rfl rfl Iff.rfl
  case xor => exact hdest (.xor rd ra rb) rfl rfl Iff.rfl
  case shl => exact hdest (.shl rd ra rb) rfl rfl Iff.rfl
  case shr => exact hdest (.shr rd ra rb) rfl rfl Iff.rfl
  case add => exact hdest (.add rd ra rb) rfl rfl Iff.rfl
  case sub => exact hdest (.sub rd ra rb) rfl rfl Iff.rfl
  case mov => exact hdest (.add rd Reg.zero ra) rfl rfl Iff.rfl
  case neg => exact hdest (.sub rd Reg.zero ra) rfl rfl Iff.rfl

end Sys2Proof.Proofs.Assembler

/-! PROOFS about what the pseudo-instructions do (spec/46_pseudo.md R173 to R187): the instructions of an accepted line,
executed one after another. -/

namespace Sys2Proof.Proofs.Lines

open Sys2Proof Sys2Proof.Machine Sys2Proof.Proofs.State Sys2Proof.Proofs.Encoding Sys2Proof.Proofs.IntegerAlu
  Sys2Proof.Proofs.Pseudo Sys2Proof.Proofs.Instructions Sys2Proof.Proofs.LoadStore Sys2Proof.Proofs.Run
  Sys2Proof.Proofs.Frame Sys2Proof.Proofs.Assembler

/-! Instructions one after another. -/

theorem execSeq_cons {i : Instr} {rest : List Instr} {s t : State} (h : exec i s = .next t) :
    execSeq (i :: rest) s = execSeq rest t := by
  simp [execSeq, h]

theorem execSeq_pair {i j : Instr} {s t u : State} (hi : exec i s = .next t) (hj : exec j t = .next u) :
    execSeq [i, j] s = .next u := by
  rw [execSeq_cons hi, execSeq_singleton, hj]

theorem execSeq_append {is js : List Instr} {s t : State} (h : execSeq is s = .next t) :
    execSeq (is ++ js) s = execSeq js t := by
  induction is generalizing s with
  | nil =>
    cases h
    rfl
  | cons i rest ih =>
    cases hi : exec i s with
    | next u =>
      rw [execSeq_cons hi] at h
      rw [List.cons_append, execSeq_cons hi, ih h]
    | fault f => simp [execSeq, hi] at h
    | refused r => simp [execSeq, hi] at h

theorem advance_advance (pc : Word) : pc + 2#32 + 2#32 = pc + 4#32 := by
  rw [BitVec.add_assoc]
  rfl

/-- Two writes of one register, one after another. -/
theorem writeAndAdvance_twice (s : State) {rd : Reg} (hrd : rd ≠ 0#4) (x v : Word) :
    let t := (s.writeAndAdvance rd x).writeAndAdvance rd v
    t.reg rd = v ∧ (∀ r, r ≠ rd → t.reg r = s.reg r) ∧ t.pc = s.pc + 4#32 ∧ SameMemory s t ∧ SameBookkeeping s t := by
  intro t
  obtain ⟨hself, hother, hpc, hmem, hwritten, hcfg⟩ := writeAndAdvance_onlyRegister (s.writeAndAdvance rd x) rd v
  obtain ⟨-, hother', hpc', hmem', hwritten', hcfg'⟩ := writeAndAdvance_onlyRegister s rd x
  refine ⟨by rwa [if_neg hrd] at hself, fun r hr => (hother r hr).trans (hother' r hr), ?_,
    fun a => (hmem a).trans (hmem' a), hwritten.trans hwritten', hcfg.trans hcfg'⟩
  rw [hpc, hpc', advance_advance]

/-- What a written register reads as, when it is not r0. -/
theorem writeAndAdvance_reg_self (s : State) {rd : Reg} (hrd : rd ≠ 0#4) (v : Word) :
    (s.writeAndAdvance rd v).reg rd = v := by
  rw [writeAndAdvance_reg, setReg_reg_self, if_neg hrd]

theorem writeAndAdvance_reg_other (s : State) {rd r : Reg} (h : r ≠ rd) (v : Word) :
    (s.writeAndAdvance rd v).reg r = s.reg r := by
  rw [writeAndAdvance_reg, setReg_reg_other s rd r v h]

theorem memReadWord_writeAndAdvance (s : State) (rd : Reg) (v a : Word) :
    memReadWord (s.writeAndAdvance rd v) a = memReadWord s a :=
  memReadWord_setReg s rd v a

/-! hlt, nop and neg (R174, R175, R180). -/

/-- The BAL of offset 1 only advances pc (R175, D22). -/
theorem exec_bal_one (s : State) : exec (.bal 1#12) s = .next s.advance := by
  rw [exec_bal, relTarget, show 2#32 * signExt 1#12 = 2#32 from rfl]
  rfl

theorem decode_one (cfg : Config) : decode cfg 0x0001#16 = .ok (.bal 1#12) :=
  decode_bal cfg 1#12

/-- Settles O51: `hlt` is BAL of 0 and `nop` BAL of 1 (D8, D22). -/
theorem hltAndNopChangeNothingButThePc : Obligations.HltAndNopChangeNothingButThePc :=
  ⟨fun cfg _ => ⟨assembleLine_of_single (i := .bal 0#12) cfg rfl rfl rfl rfl,
      assembleLine_of_single (i := .bal 1#12) cfg rfl rfl rfl rfl⟩,
   fun cfg s => ⟨⟨_, decode_zero cfg, exec_bal_zero s⟩, ⟨_, _, decode_one cfg, exec_bal_one s, setPc_onlyPc s _⟩⟩⟩

/-- The word of `neg` (R180): the fields of SUB with r0 as its first source. -/
theorem encodeWord_sub_zero (cfg : Config) (rd ra : Reg) :
    encodeWord cfg (.sub rd Reg.zero ra) = ra.setWidth 16 <<< 8 ||| 0x00E0#16 ||| rd.setWidth 16 := by
  rw [encodeWord, aluWord_eq_or]
  simp

theorem zero_sub_eq_ofInt_neg (v : Word) : 0#32 - v = BitVec.ofInt 32 (-v.toInt) := by
  rw [BitVec.zero_sub]
  exact BitVec.eq_of_toInt_eq (by rw [BitVec.toInt_neg, BitVec.toInt_ofInt])

/-- Settles O53: `neg` is SUB with r0, which reads 0, as its first source (D17). -/
theorem negNegates : Obligations.NegNegates := by
  refine ⟨fun cfg here rd ra hrd => ?word, fun here s rd ra => ?effect⟩
  case word =>
    rw [← encodeWord_sub_zero cfg]
    exact assembleLine_of_single cfg rfl rfl (wellFormed_sub_iff.mpr hrd) rfl
  case effect =>
    exact ⟨_, _, _, rfl, execSeq_singleton _ s, writeAndAdvance_onlyRegister s rd _, zero_sub_eq_ofInt_neg _⟩

/-! blk (R178). -/

theorem lineInstrs_blk_eq_ok {here label : Word} {is : List Instr} : lineInstrs here (.blk label) = .ok is ↔
    ∃ off, relTarget (here + 2#32) off = label ∧ is = [.adr Reg.lr 2#10, .bal off] := by
  simp only [← offsetField_eq_ok_iff (n := 12) (by decide) (by decide), lineInstrs]
  cases offsetField 12 (here + 2#32) label <;> simp [bind, Except.bind, pure, Except.pure, eq_comm]

/-- Settles O54: ADR writes the address after both words to lr, BAL goes to the label (D8). -/
theorem blkLinksAndBranches : Obligations.BlkLinksAndBranches := by
  intro s label is hline
  obtain ⟨off, htarget, rfl⟩ := lineInstrs_blk_eq_ok.mp hline
  have hadr : exec (.adr Reg.lr 2#10) s = .next (s.writeAndAdvance Reg.lr (s.pc + 4#32)) := exec_adr s Reg.lr 2#10
  obtain ⟨hlr, hother, hpc, hmem, hbook⟩ := writeAndAdvance_onlyRegister s Reg.lr (s.pc + 4#32)
  refine ⟨_, execSeq_pair hadr (exec_bal _ off), ?_, hlr, hother, hmem, hbook⟩
  rw [setPc_pc, hpc, htarget]

/-! The two-word imm (R183). -/

theorem lineInstrs_imm32_eq_ok {here value literal : Word} {rd : Reg} {is : List Instr} :
    lineInstrs here (.imm32 rd value literal) = .ok is ↔
      ∃ off, relTarget here off = literal ∧ is = [.adr rd off, .ldw rd rd] := by
  simp only [← offsetField_eq_ok_iff (n := 10) (by decide) (by decide), lineInstrs]
  cases offsetField 10 here literal <;> simp [bind, Except.bind, pure, Except.pure, eq_comm]

/-- ADR puts the literal's address into rd, LDW its word. -/
theorem execSeq_imm32 {s : State} {rd : Reg} {value literal v : Word} {is : List Instr} (hrd : rd ≠ 0#4)
    (hline : lineInstrs s.pc (.imm32 rd value literal) = .ok is) (halign : AlignAllowed s.cfg literal)
    (hread : memReadWord s literal = .ok v) :
    execSeq is s = .next ((s.writeAndAdvance rd literal).writeAndAdvance rd v) := by
  obtain ⟨off, rfl, rfl⟩ := lineInstrs_imm32_eq_ok.mp hline
  have haddr := writeAndAdvance_reg_self s hrd (relTarget s.pc off)
  refine execSeq_pair (exec_adr s rd off) (exec_ldw_of_read (.inr hrd) ?_ ?_)
  · rwa [haddr, writeAndAdvance_cfg]
  · rwa [haddr, memReadWord_writeAndAdvance]

/-- Settles O55 (D8, D9). -/
theorem theTwoWordImmLoadsItsLiteral : Obligations.TheTwoWordImmLoadsItsLiteral :=
  fun s _ _ literal v _ hrd hline halign hread =>
    ⟨_, execSeq_imm32 hrd hline halign hread, writeAndAdvance_twice s hrd literal v⟩

/-! Raw data (R186, R187). -/

/-- A byte of the upper half of a word is a byte of the word. -/
theorem byte_of_upperHalf (v : Word) {i : Nat} (h : i + 8 ≤ 16) :
    (v.extractLsb' 16 16).extractLsb' i 8 = v.extractLsb' (16 + i) 8 := by
  ext j hj
  have hin : i + j < 16 := by omega
  simp [hin, Nat.add_assoc]

theorem imageBytes_wordHalves (e : Endian) (v : Word) :
    imageBytes e (wordHalves e v) = [wordByte e v 0, wordByte e v 1, wordByte e v 2, wordByte e v 3] := by
  cases e <;>
    simp [imageBytes, wordHalves, halfBytes, wordByte, BitVec.extractLsb'_extractLsb'_of_le, byte_of_upperHalf]

/-- The bytes of a word placed at a mapped address read back as the word, for each ENDIAN (R48). -/
theorem memReadWord_placeBytes (s : State) (a v : Word) (h : AllMapped s.cfg a 4) :
    memReadWord (s.placeBytes a (imageBytes s.cfg.endian (wordHalves s.cfg.endian v))) a = .ok v := by
  have hholds : HoldsBytes (s.placeBytes a (imageBytes s.cfg.endian (wordHalves s.cfg.endian v))) a
      (wordByte s.cfg.endian v 0) (wordByte s.cfg.endian v 1) (wordByte s.cfg.endian v 2)
      (wordByte s.cfg.endian v 3) := by
    rw [imageBytes_wordHalves]
    simp [HoldsBytes, placeBytes_byte?]
  have hread := memReadWord_of_holdsBytes (by rwa [placeBytes_cfg]) hholds
  rwa [placeBytes_cfg, joinWord_wordByte] at hread

theorem memReadHalf_placeBytes (s : State) (a : Word) (w : Half) (h : AllMapped s.cfg a 2) :
    memReadHalf (s.placeBytes a (imageBytes s.cfg.endian [w])) a = .ok w := by
  obtain ⟨h0, h1⟩ := placeHalf_byte? s a w
  have hread := memReadHalf_of_bytes (s := s.placeHalf a w) (by rwa [State.placeHalf, placeBytes_cfg]) h0 h1
  rwa [State.placeHalf, placeBytes_cfg, joinHalf_halfBytes] at hread

/-- Settles O58: a raw-data line is its data alone. -/
theorem rawDataReadsBack : Obligations.RawDataReadsBack :=
  fun s a _ v h => ⟨fun hmapped => ⟨_, rfl, memReadWord_placeBytes s a v hmapped⟩,
    fun hmapped => ⟨_, rfl, memReadHalf_placeBytes s a h hmapped⟩⟩

/-! The mnemonic imm (R150, R183). -/

theorem lineInstrs_imm_eq_ok {here : Word} {rd : Reg} {v : Int} {is : List Instr} :
    lineInstrs here (.imm rd v) = .ok is ↔ -16 ≤ v ∧ v ≤ 15 ∧ is = [.imm rd (BitVec.ofInt 5 v)] := by
  have hrange : -(2 ^ (5 - 1) : Int) ≤ v ∧ v < 2 ^ (5 - 1) ↔ -16 ≤ v ∧ v ≤ 15 := by omega
  simp only [lineInstrs, signedField, hrange]
  split
  · next h => simp [bind, Except.bind, pure, Except.pure, eq_comm, h]
  · next h =>
    simp only [bind, Except.bind, reduceCtorEq, false_iff]
    tauto

theorem signExt_ofInt_five {v : Int} (hlow : -16 ≤ v) (hhigh : v ≤ 15) :
    signExt (BitVec.ofInt 5 v) = BitVec.ofInt 32 v := by
  apply BitVec.eq_of_toInt_eq
  rw [signExt_toInt (by decide), BitVec.toInt_ofInt_eq_self (by decide) (by omega) (by omega),
    BitVec.toInt_ofInt_eq_self (by decide) (by omega) (by omega)]

theorem reg_congr {s t : State} (h : t.regs = s.regs) (r : Reg) : t.reg r = s.reg r := by
  rw [State.reg, State.reg]
  simp only [h]

/-- The two-word form, executed with its literal placed, loads the operand. -/
theorem execSeq_imm32_placeLiteral {s : State} {rd : Reg} {value literal : Word} {is : List Instr} (hrd : rd ≠ 0#4)
    (hline : lineInstrs s.pc (.imm32 rd value literal) = .ok is) (halign : AlignAllowed s.cfg literal)
    (hmapped : AllMapped s.cfg literal 4) :
    execSeq is (s.placeLiteral (.imm32 rd value literal)) =
      .next (((s.placeLiteral (.imm32 rd value literal)).writeAndAdvance rd literal).writeAndAdvance rd value) :=
  execSeq_imm32 hrd (by rwa [placeLiteral_pc]) (by rwa [placeLiteral_cfg])
    (memReadWord_placeBytes s literal value hmapped)

/-- Settles O56: `immLine` chooses the form, and each form loads the operand (log 35, D30). -/
theorem theImmMnemonicChoosesItsFormAndLoadsItsOperand :
    Obligations.TheImmMnemonicChoosesItsFormAndLoadsItsOperand := by
  refine ⟨fun rd v literal => ⟨fun hlow hhigh => ?one, fun hout hlow hhigh => ?two, fun hout => ?none⟩,
    fun s rd v literal l is hrd hl hline hplace => ?effect⟩
  case one => exact immLine_eq_ok.mpr (.inl ⟨hlow, hhigh, rfl⟩)
  case two =>
    refine ⟨BitVec.ofInt 32 v, immLine_eq_ok.mpr (.inr ⟨hout, by omega, by omega, rfl⟩), ?_, rfl⟩
    rw [BitVec.toNat_ofInt]
    omega
  case none =>
    have hone : ¬ (-16 ≤ v ∧ v ≤ 15) := by omega
    have htwo : ¬ (-2147483648 ≤ v ∧ v < 4294967296) := by omega
    rw [immLine, if_neg hone, if_neg htwo]
  case effect =>
    obtain ⟨hlow, hhigh, rfl⟩ | ⟨-, -, -, rfl⟩ := immLine_eq_ok.mp hl
    · obtain ⟨-, -, rfl⟩ := lineInstrs_imm_eq_ok.mp hline
      obtain ⟨hself, hother, hpc, hmem, hbook⟩ := writeAndAdvance_onlyRegister s rd (BitVec.ofInt 32 v)
      have hexec : execSeq [.imm rd (BitVec.ofInt 5 v)] s = .next (s.writeAndAdvance rd (BitVec.ofInt 32 v)) := by
        rw [execSeq_singleton, exec_imm, signExt_ofInt_five hlow hhigh]
      exact ⟨_, hexec, by rwa [if_neg hrd] at hself, hother, hpc, hmem, hbook⟩
    · obtain ⟨halign, hmapped⟩ := hplace.resolve_left nofun
      obtain ⟨hself, hother, hpc, hmem, hwritten, hcfg⟩ :=
        writeAndAdvance_twice (s.placeLiteral (.imm32 rd (BitVec.ofInt 32 v) literal)) hrd literal (BitVec.ofInt 32 v)
      have hexec := execSeq_imm32_placeLiteral hrd hline halign hmapped
      obtain ⟨off, -, rfl⟩ := lineInstrs_imm32_eq_ok.mp hline
      exact ⟨_, hexec, hself, fun r hr => (hother r hr).trans (reg_congr (placeLiteral_regs s _) r),
        hpc.trans (by rw [placeLiteral_pc]; rfl), hmem, hwritten.trans (placeLiteral_written s _),
        hcfg.trans (placeLiteral_cfg s _)⟩

/-! psh and pop (R184, R185). -/

/-- The state after `psh` of one register: sp has moved down by 4 and the register stands there; for sp itself, the
value it has moved to. -/
def pushed (s : State) (ra : Reg) : State :=
  let slot := s.reg 14#4 - 4#32
  ((s.writeAndAdvance 14#4 slot).storeWord slot (if ra = 14#4 then slot else s.reg ra)).advance

section

variable {s : State} {ra rd : Reg}

theorem execSeq_psh (hra : RaAllowed s.cfg ra) (halign : AlignAllowed s.cfg (s.reg 14#4 - 4#32))
    (hmapped : AllMapped s.cfg (s.reg 14#4 - 4#32) 4) : execSeq (pshInstrs [ra]) s = .next (pushed s ra) := by
  let t := s.writeAndAdvance 14#4 (s.reg 14#4 - 4#32)
  have hcfg : t.cfg = s.cfg := writeAndAdvance_cfg _ _ _
  have hsp : t.reg 14#4 = s.reg 14#4 - 4#32 := writeAndAdvance_reg_self s sp_ne_zero _
  have hvalue : t.reg ra = if ra = 14#4 then s.reg 14#4 - 4#32 else s.reg ra := by
    split
    · next h => rw [h, hsp]
    · next h => exact writeAndAdvance_reg_other s h _
  have hstore : exec (.stw 14#4 ra) t = .next (t.storeWord (t.reg 14#4) (t.reg ra)).advance :=
    exec_stw_of_mapped (by rwa [hcfg]) (by rwa [hcfg, hsp]) (by rwa [hcfg, hsp])
  rw [hsp, hvalue] at hstore
  exact execSeq_pair (exec_dec s 14#4 4#5) hstore

theorem pushed_sp : (pushed s ra).reg 14#4 = s.reg 14#4 - 4#32 :=
  writeAndAdvance_reg_self s sp_ne_zero _

theorem pushed_reg_other {r : Reg} (h : r ≠ 14#4) : (pushed s ra).reg r = s.reg r :=
  writeAndAdvance_reg_other s h _

theorem pushed_pc : (pushed s ra).pc = s.pc + 4#32 := by
  rw [pushed, advance_pc, storeWord_pc, writeAndAdvance_pc, advance_advance]

theorem pushed_cfg : (pushed s ra).cfg = s.cfg :=
  writeAndAdvance_cfg _ _ _

theorem memReadWord_pushed (hmapped : AllMapped s.cfg (s.reg 14#4 - 4#32) 4) :
    memReadWord (pushed s ra) (s.reg 14#4 - 4#32) = .ok (if ra = 14#4 then s.reg 14#4 - 4#32 else s.reg ra) := by
  have hread := memReadWord_of_holdsBytes (s := pushed s ra) (by rwa [pushed_cfg])
    (storeWord_holdsBytes (s.writeAndAdvance 14#4 (s.reg 14#4 - 4#32)) (s.reg 14#4 - 4#32) _)
  rwa [pushed_cfg, writeAndAdvance_cfg, joinWord_wordByte] at hread

theorem pushed_byte?_other {b : Word} (h : ∀ k < 4, b ≠ wordByteAddr (s.reg 14#4 - 4#32) k) :
    (pushed s ra).byte? b = s.byte? b := by
  rw [pushed, advance_byte?, storeWord_byte?_other _ _ _ h, writeAndAdvance_byte?]

/-- `pop` of a register other than r0 and sp loads the word at sp and moves sp up by 4. -/
theorem execSeq_pop {v : Word} (hsp : rd ≠ 14#4) (halign : AlignAllowed s.cfg (s.reg 14#4))
    (hread : memReadWord s (s.reg 14#4) = .ok v) :
    execSeq (popInstrs [rd]) s = .next ((s.writeAndAdvance rd v).writeAndAdvance 14#4 (s.reg 14#4 + 4#32)) := by
  have hinc := exec_inc (s.writeAndAdvance rd v) 14#4 4#5
  rw [writeAndAdvance_reg_other s hsp.symm] at hinc
  exact execSeq_pair (exec_ldw_of_read (.inr sp_ne_zero) halign hread) hinc

end

/-- Settles O57: what `psh` stores at the new top (`memReadWord_pushed`) is what `pop` loads from there. -/
theorem pushThenPopRestores : Obligations.PushThenPopRestores := by
  intro here s ra rd slot hra halign hmapped
  have hpsh := execSeq_psh hra halign hmapped
  refine ⟨⟨_, _, rfl, hpsh, pushed_sp, fun r hr => pushed_reg_other hr, pushed_pc, memReadWord_pushed hmapped,
    fun b hb => pushed_byte?_other hb⟩, fun hrd hsp => ?pop⟩
  have hpop := execSeq_pop (s := pushed s ra) hsp (by rwa [pushed_cfg, pushed_sp])
    (by rw [pushed_sp]; exact memReadWord_pushed hmapped)
  rw [pushed_sp, BitVec.sub_add_cancel] at hpop
  refine ⟨_, _, rfl, (execSeq_append hpsh).trans hpop, writeAndAdvance_reg_self _ sp_ne_zero _, ?_, fun r hr hrsp => ?_⟩
  · rw [writeAndAdvance_reg_other _ hsp, writeAndAdvance_reg_self _ hrd]
  · rw [writeAndAdvance_reg_other _ hrsp, writeAndAdvance_reg_other _ hr, pushed_reg_other hrsp]

end Sys2Proof.Proofs.Lines
